-- ==== Sys2Proof/Word.lean ====
section
/-! DEFINITION. The elementary data of the CompOrgFinalProject core: the 16-bit word (R11), the 4-bit register index
(R12, R81) and the set of four status flags (R32). -/

namespace Sys2Proof

/-- A word: registers, ALU operands and results, instruction words, data-memory words, the PC and the SP (R11).
`u(v)` of R15 is `v.toNat`, `s(v)` is `v.toInt`, and bit `i` of `v` is `v.getLsbD i`. -/
abbrev Word := BitVec 16

/-- A register index: a 4-bit field of an instruction (R12, R81, R91). -/
abbrev Reg := BitVec 4

/-- The four flag bits the ALU holds between operations (R32). -/
structure Flags where
  /-- Negative -/
  n : Bool
  /-- Zero -/
  z : Bool
  /-- Carry -/
  c : Bool
  /-- Overflow -/
  v : Bool
deriving DecidableEq, Repr

end Sys2Proof
end

