-- ==== Sys2Proof/Syntax.lean ====
section
/-! DEFINITION. The sixteen instructions (R2), one constructor of `Instr` for each row of spec/opcode_table.json, and
the decoded instruction the control unit holds (R31, R81). An immediate is the 16-bit value the decoder delivers. -/

namespace Sys2Proof

/-- The fixed enumerated set of mnemonics (R2), in the order of the opcode map (R82). -/
inductive Mnemonic where
  | LOADI | LUI | LOAD | STORE | ADDI | ADD | SUB | AND | OR | SHFT | BEQ | BNE | B | CALL | RET | HALT
deriving DecidableEq, Repr

/-- The five instruction formats (R83 to R87). -/
inductive Format where
  /-- op, rd, ra, rb (R83) -/
  | R
  /-- op, rd, ra, imm4 (R84) -/
  | RI
  /-- op, rd, imm8 (R85) -/
  | I8
  /-- op, four reserved bits, imm8 (R86) -/
  | J
  /-- op, twelve reserved bits (R87) -/
  | N
deriving DecidableEq, Repr

/-- The decoded instruction `dec = (mnemonic, rd, ra, rb, imm)` (R31, R81). A field its format lacks is 0 (R88). -/
structure Decoded where
  mnemonic : Mnemonic
  rd : Reg
  ra : Reg
  rb : Reg
  imm : Word
deriving DecidableEq, Repr

/-- An instruction with the operands its execute rule reads. -/
inductive Instr where
  /-- R170 -/
  | loadi (rd : Reg) (imm : Word)
  /-- R171 -/
  | lui (rd : Reg) (imm : Word)
  /-- R172: `ra` is the base. -/
  | load (rd ra : Reg) (imm : Word)
  /-- R173: `rd` is the base address register, `ra` the register whose value is stored. -/
  | store (rd ra : Reg) (imm : Word)
  /-- R190 -/
  | addi (rd ra : Reg) (imm : Word)
  /-- R191 -/
  | add (rd ra rb : Reg)
  /-- R192 -/
  | sub (rd ra rb : Reg)
  /-- R193 -/
  | and (rd ra rb : Reg)
  /-- R194 -/
  | or (rd ra rb : Reg)
  /-- R195 -/
  | shft (rd ra rb : Reg)
  /-- R212 -/
  | beq (imm : Word)
  /-- R213 -/
  | bne (imm : Word)
  /-- R214 -/
  | b (imm : Word)
  /-- R216 -/
  | call (imm : Word)
  /-- R217 -/
  | ret
  /-- R218 -/
  | halt
deriving DecidableEq, Repr

end Sys2Proof
end

