-- ==== Sys2Proof/WellFormed.lean ====
section
/-! DEFINITION. Which instructions an encoding exists for: the immediate is one the decoder can deliver (R89, R90).
Register operands need no check, since all sixteen values are legal in every field (R91). -/

namespace Sys2Proof

/-- An RI immediate is the sign extension of four bits, a value in -8 .. +7 (R89). -/
def immFits4 (imm : Word) : Bool := imm == (imm.setWidth 4).signExtend 16

/-- An I8 or J immediate is the zero extension of eight bits (R90). -/
def immFits8 (imm : Word) : Bool := imm == (imm.setWidth 8).setWidth 16

/-- The instruction has an encoding. -/
def Instr.wellFormed : Instr → Bool
  | .loadi _ imm => immFits8 imm
  | .lui _ imm => immFits8 imm
  | .load _ _ imm => immFits4 imm
  | .store _ _ imm => immFits4 imm
  | .addi _ _ imm => immFits4 imm
  | .add _ _ _ => true
  | .sub _ _ _ => true
  | .and _ _ _ => true
  | .or _ _ _ => true
  | .shft _ _ _ => true
  | .beq imm => immFits8 imm
  | .bne imm => immFits8 imm
  | .b imm => immFits8 imm
  | .call imm => immFits8 imm
  | .ret => true
  | .halt => true

end Sys2Proof
end

