-- ==== Sys2Proof/Decode.lean ====
section
/-! DEFINITION. The instruction decoder and, after it, the encoder, from the tables of 30_encoding.md. Every
instruction is one 16-bit word (R80). -/

namespace Sys2Proof

/-- The sign-extension primitive of R16: mask `v` to its low `bits` bits, then extend the top one of them. -/
def signExtend (v : Word) (bits : Nat) : Word := (v.setWidth bits).signExtend 16

/-- `word[15:12]` (R82). -/
def opcodeField (w : Word) : BitVec 4 := w.extractLsb' 12 4

/-- `word[11:8]`: `rd` in formats R, RI and I8 (R83 to R85). -/
def rdField (w : Word) : Reg := w.extractLsb' 8 4

/-- `word[7:4]`: `ra` in formats R and RI (R83, R84). -/
def raField (w : Word) : Reg := w.extractLsb' 4 4

/-- `word[3:0]`: `rb` in format R (R83). -/
def rbField (w : Word) : Reg := w.extractLsb' 0 4

/-- `sext_16(word[3:0])`: the RI immediate (R89). -/
def imm4Field (w : Word) : Word := (w.extractLsb' 0 4).signExtend 16

/-- `zext_16(word[7:0])`: the I8 and J immediate (R90). -/
def imm8Field (w : Word) : Word := (w.extractLsb' 0 8).setWidth 16

/-- The opcode map (R82). All sixteen values are assigned, so the last arm is never taken (R93); a decoder with a
free opcode would answer none there, which the control unit turns into the fault UnknownInstruction (R144). -/
def mnemonicOf (op : BitVec 4) : Option Mnemonic :=
  match op with
  | 0x0#4 => some .LOADI
  | 0x1#4 => some .LUI
  | 0x2#4 => some .LOAD
  | 0x3#4 => some .STORE
  | 0x4#4 => some .ADDI
  | 0x5#4 => some .ADD
  | 0x6#4 => some .SUB
  | 0x7#4 => some .AND
  | 0x8#4 => some .OR
  | 0x9#4 => some .SHFT
  | 0xA#4 => some .BEQ
  | 0xB#4 => some .BNE
  | 0xC#4 => some .B
  | 0xD#4 => some .CALL
  | 0xE#4 => some .RET
  | 0xF#4 => some .HALT
  | _ => none

/-- The format column of R82. -/
def formatOf : Mnemonic → Format
  | .LOADI => .I8
  | .LUI => .I8
  | .LOAD => .RI
  | .STORE => .RI
  | .ADDI => .RI
  | .ADD => .R
  | .SUB => .R
  | .AND => .R
  | .OR => .R
  | .SHFT => .R
  | .BEQ => .J
  | .BNE => .J
  | .B => .J
  | .CALL => .J
  | .RET => .N
  | .HALT => .N

/-- The fields a word of the given format delivers (R83 to R88); reserved bits are not looked at (R92). -/
def decodeAs (m : Mnemonic) (w : Word) : Decoded :=
  match formatOf m with
  | .R => { mnemonic := m, rd := rdField w, ra := raField w, rb := rbField w, imm := 0 }
  | .RI => { mnemonic := m, rd := rdField w, ra := raField w, rb := 0, imm := imm4Field w }
  | .I8 => { mnemonic := m, rd := rdField w, ra := 0, rb := 0, imm := imm8Field w }
  | .J => { mnemonic := m, rd := 0, ra := 0, rb := 0, imm := imm8Field w }
  | .N => { mnemonic := m, rd := 0, ra := 0, rb := 0, imm := 0 }

/-- The decoder (R81): it reads nothing but the word. None stands for a mnemonic outside the sixteen. -/
def decode (w : Word) : Option Decoded :=
  match mnemonicOf (opcodeField w) with
  | some m => some (decodeAs m w)
  | none => none

/-- The instruction execute dispatches on (R145), with the fields its rule reads. -/
def instrOf (d : Decoded) : Instr :=
  match d.mnemonic with
  | .LOADI => .loadi d.rd d.imm
  | .LUI => .lui d.rd d.imm
  | .LOAD => .load d.rd d.ra d.imm
  | .STORE => .store d.rd d.ra d.imm
  | .ADDI => .addi d.rd d.ra d.imm
  | .ADD => .add d.rd d.ra d.rb
  | .SUB => .sub d.rd d.ra d.rb
  | .AND => .and d.rd d.ra d.rb
  | .OR => .or d.rd d.ra d.rb
  | .SHFT => .shft d.rd d.ra d.rb
  | .BEQ => .beq d.imm
  | .BNE => .bne d.imm
  | .B => .b d.imm
  | .CALL => .call d.imm
  | .RET => .ret
  | .HALT => .halt

/-- From a word to the instruction it stands for. -/
def decodeInstr (w : Word) : Option Instr :=
  match decode w with
  | some d => some (instrOf d)
  | none => none

/-- The decoder's answer for an instruction whose bits are `w`, numbered as spec/opcode_table.json numbers them. An
instruction is one word (R80), so bits from 16 on belong to no instruction. -/
def decodeTableWord (nbits w : Nat) : Option Instr :=
  decodeInstr (BitVec.ofNat 16 (w % 2 ^ nbits))

/-- The mnemonic of an instruction. -/
def mnemonicOfInstr : Instr → Mnemonic
  | .loadi _ _ => .LOADI
  | .lui _ _ => .LUI
  | .load _ _ _ => .LOAD
  | .store _ _ _ => .STORE
  | .addi _ _ _ => .ADDI
  | .add _ _ _ => .ADD
  | .sub _ _ _ => .SUB
  | .and _ _ _ => .AND
  | .or _ _ _ => .OR
  | .shft _ _ _ => .SHFT
  | .beq _ => .BEQ
  | .bne _ => .BNE
  | .b _ => .B
  | .call _ => .CALL
  | .ret => .RET
  | .halt => .HALT

/-- The opcode of a mnemonic (R82). -/
def opcodeOf : Mnemonic → BitVec 4
  | .LOADI => 0x0#4
  | .LUI => 0x1#4
  | .LOAD => 0x2#4
  | .STORE => 0x3#4
  | .ADDI => 0x4#4
  | .ADD => 0x5#4
  | .SUB => 0x6#4
  | .AND => 0x7#4
  | .OR => 0x8#4
  | .SHFT => 0x9#4
  | .BEQ => 0xA#4
  | .BNE => 0xB#4
  | .B => 0xC#4
  | .CALL => 0xD#4
  | .RET => 0xE#4
  | .HALT => 0xF#4

/-- `op << 12 | rd << 8 | ra << 4 | low` (R95, formats R and RI). -/
def encodeNibbles (op rd ra low : BitVec 4) : Word :=
  (op.setWidth 16 <<< 12) ||| (rd.setWidth 16 <<< 8) ||| (ra.setWidth 16 <<< 4) ||| low.setWidth 16

/-- `op << 12 | rd << 8 | imm8` (R95, formats I8 and J). -/
def encodeByte (op rd : BitVec 4) (imm : Word) : Word :=
  (op.setWidth 16 <<< 12) ||| (rd.setWidth 16 <<< 8) ||| (imm &&& 0xFF#16)

/-- The encoder (R95); reserved bits are written as 0 (R92). -/
def encode : Instr → Word
  | .loadi rd imm => encodeByte (opcodeOf .LOADI) rd imm
  | .lui rd imm => encodeByte (opcodeOf .LUI) rd imm
  | .load rd ra imm => encodeNibbles (opcodeOf .LOAD) rd ra (imm.setWidth 4)
  | .store rd ra imm => encodeNibbles (opcodeOf .STORE) rd ra (imm.setWidth 4)
  | .addi rd ra imm => encodeNibbles (opcodeOf .ADDI) rd ra (imm.setWidth 4)
  | .add rd ra rb => encodeNibbles (opcodeOf .ADD) rd ra rb
  | .sub rd ra rb => encodeNibbles (opcodeOf .SUB) rd ra rb
  | .and rd ra rb => encodeNibbles (opcodeOf .AND) rd ra rb
  | .or rd ra rb => encodeNibbles (opcodeOf .OR) rd ra rb
  | .shft rd ra rb => encodeNibbles (opcodeOf .SHFT) rd ra rb
  | .beq imm => encodeByte (opcodeOf .BEQ) 0 imm
  | .bne imm => encodeByte (opcodeOf .BNE) 0 imm
  | .b imm => encodeByte (opcodeOf .B) 0 imm
  | .call imm => encodeByte (opcodeOf .CALL) 0 imm
  | .ret => encodeNibbles (opcodeOf .RET) 0 0 0
  | .halt => encodeNibbles (opcodeOf .HALT) 0 0 0

end Sys2Proof
end

