-- ==== Sys2Proof/Config.lean ====
section
/-! DEFINITION. What the spec leaves to whoever builds the core: the parameters of R13 and X1, as data. Nothing here
is fixed by the source; `Config` is carried in the state so that every statement holds for all of its values. -/

namespace Sys2Proof

/-- The parameters that stay in force while the core runs. No step changes them. -/
structure Config where
  /-- `IMEM_SIZE`: the number of words of instruction memory (R13, R50). -/
  imemSize : Nat
  /-- `DMEM_SIZE`: the number of words of data memory (R13, R51). -/
  dmemSize : Nat
  /-- `SHIFT0_KEEPS_CARRY` (93_implementation_defined.md X1): false is the spec's rule R119; true is the
  alternative the source allows (carry kept by a shift of amount 0). -/
  shift0KeepsCarry : Bool
deriving DecidableEq, Repr

/-- The legal range of the two sizes (R13): 1 to 65536 words each. -/
def Config.legal (c : Config) : Bool :=
  decide (1 ≤ c.imemSize) && decide (c.imemSize ≤ 65536) && decide (1 ≤ c.dmemSize) && decide (c.dmemSize ≤ 65536)

/-- The sizes `State.reset` takes: the whole 16-bit address space of each memory. DESIGN CHOICE, unsafe: the source
gives no size (log entry 1). `shift0KeepsCarry` is the spec's default. -/
def Config.chosen : Config :=
  { imemSize := 65536, dmemSize := 65536, shift0KeepsCarry := false }

/-- Everything the host supplies when it builds the core (R13, R270). -/
structure Params where
  config : Config
  /-- `SP_INIT`, "a configured top-of-stack address". -/
  spInit : Word
  /-- `PROGRAM`, the "optional initial program". -/
  program : Option (List Word)
  /-- `REG_INIT`, the contents of the register file the host injects. -/
  regInit : Vector Word 16
  /-- `DMEM_INIT`, word `i` at address `i`: `DMEM_SIZE` words. -/
  dmemInit : List Word
  /-- `FLAGS_INIT`, the flags of the ALU the host injects. -/
  flagsInit : Flags
deriving DecidableEq, Repr

/-- The ranges of R13, but for the length of the program, which loading checks (R272). -/
def Params.legal (p : Params) : Bool :=
  p.config.legal && decide (p.dmemInit.length = p.config.dmemSize)

/-- The parameters `State.reset` is built from. DESIGN CHOICE, unsafe: the spec leaves each to the host (log entries
1 to 5); zeros are what 95_test_vectors.md section 3 takes, and `SP_INIT = DMEM_SIZE mod 2^16` is what D12 suggests. -/
def Params.chosen : Params :=
  { config := Config.chosen, spInit := 0, program := none, regInit := Vector.replicate 16 0,
    dmemInit := List.replicate 65536 0, flagsInit := { n := false, z := false, c := false, v := false } }

end Sys2Proof
end

