-- ==== Sys2Proof/Machine/State.lean ====
section
/-! DEFINITION. The architectural state of the core (R20), the faults (R241) and refusals a step can end in, and the
state after reset (R270, R271). -/

namespace Sys2Proof.Machine

/-- One memory (R50, R51): the words that are not 0x0000, as (address, word) pairs. The unit of addressing is the
16-bit word and no byte order exists (R53, R57), so a cell holds a whole word. An unlisted address reads as 0x0000:
for instruction memory by R61, for data memory by the choice of log entry 4. The canonical form is `Memory.wf`. -/
abbrev Memory := List (Nat × Word)

/-- Which of the two disjoint address spaces (R52). -/
inductive Space where
  | imem
  | dmem
deriving DecidableEq, Repr

/-- The complete state of R20, the `faulted` mark of R246, and the parameters in force. -/
structure State where
  /-- `IMEM_SIZE`, `DMEM_SIZE` and `SHIFT0_KEEPS_CARRY` (R13, X1): parameters, changed by no step. -/
  config : Config
  /-- `x[0]` .. `x[15]` (R21). -/
  regs : Vector Word 16
  /-- program counter, a word index into IMEM (R25) -/
  pc : Word
  /-- stack pointer, a word index into DMEM (R28) -/
  sp : Word
  /-- instruction register, the last fetched word (R30) -/
  ir : Word
  /-- the instruction the current or last step decoded, none before the first step (R31) -/
  dec : Option Decoded
  /-- the halted flag (R34) -/
  halted : Bool
  /-- the mark of the terminal state faulted (R246) -/
  faulted : Bool
  /-- N, Z, C, V (R32) -/
  flags : Flags
  /-- instruction memory (R50) -/
  imem : Memory
  /-- data memory (R51) -/
  dmem : Memory
deriving DecidableEq, Repr

/-- The four errors of R241, each with the info it records. -/
inductive FaultCause where
  /-- Code 1. Raised by the ALU's name-level interface when asked for an operation by a name outside the five (R242).
  No instruction raises it (R196). Safe: the spec names it. -/
  | invalidOperation (name : String)
  /-- Code 2. Raised by the ALU for a selector outside the five (R243). No instruction raises it (R196). Safe. -/
  | invalidControlSignal (sel : BitVec 3)
  /-- Code 3. Raised by decode for a mnemonic outside the sixteen, with the raw word (R244). The decoder of
  30_encoding.md never yields one (R93). Safe. -/
  | unknownInstruction (ir : Word)
  /-- Code 4. Raised by fetch, LOAD, STORE, CALL, RET and program load for an address at or past the memory's size
  (R245). The address is `u(a)`; program load reports `IMEM_SIZE`, which may be 65536. Safe. -/
  | outOfBounds (space : Space) (addr : Nat)
deriving DecidableEq, Repr

/-- How a step stops without a next state. -/
inductive Fault where
  /-- A step, or an instruction in it, raised one of the four errors; `left` is the state the fault leaves, every
  write before the fault done and none after it, with the faulted mark set (R246, R247). Safe. -/
  | raised (cause : FaultCause) (left : State)
  /-- `step` was called on a faulted core, which has no step (R246, X9). Safe: the run is stuck. -/
  | noStep
deriving DecidableEq, Repr

/-- Why the model has no meaning for an instruction. -/
inductive Refusal where
  /-- Raised by no arm: every instruction of the opcode table has its meaning. Safe. -/
  | notModelled (mnemonic : String)
deriving DecidableEq, Repr

/-- What `step` reports to the host (R140). -/
inductive StepReport where
  /-- the step executed an instruction -/
  | advanced (s : State)
  /-- the core was already halted; no state changes (R142) -/
  | notAdvanced
  /-- the step ended in a fault -/
  | stopped (f : Fault)
  /-- the model has no meaning for the instruction (never: see `Refusal`) -/
  | refused (r : Refusal)
deriving DecidableEq, Repr

/-- The control unit's three states (R35). -/
inductive ControlState where
  | running
  | halted
  | faulted
deriving DecidableEq, Repr

/-- How a run, or the first part of one, ends (R158). -/
inductive RunEnd where
  /-- a step executed HALT; `steps` counts the steps that returned Advanced (R157) -/
  | halted (steps : Nat) (s : State)
  /-- a step raised a fault after `steps` steps that returned Advanced -/
  | faulted (steps : Nat) (f : Fault)
  /-- the steps allowed did not end the run; the core is still running, and no state is reported as an end (X11) -/
  | didNotEnd
  /-- never: see `Refusal` -/
  | refused (r : Refusal)
deriving DecidableEq, Repr

/-- The core as R270 builds it from `Params.chosen`: the values R271 states, and for the host's parameters the values
of log entries 1 to 5. -/
def State.reset : State :=
  { config := Config.chosen
    regs := Vector.replicate 16 0
    pc := 0
    sp := 0
    ir := 0
    dec := none
    halted := false
    faulted := false
    flags := { n := false, z := false, c := false, v := false }
    imem := []
    dmem := [] }

end Sys2Proof.Machine
end

