-- ==== Sys2Proof/Machine/Ops.lean ====
section
/-! DEFINITION. The named operations on memory, registers and control state, and raising a fault, which is the only
thing this core has in place of an exception (R240, R250); there is nothing to return from (R251). -/

namespace Sys2Proof.Machine

/-! ### One memory as a list of non-zero words -/

/-- The word at an address (R53); 0x0000 where nothing is listed (R61, log entry 4). -/
def Memory.read : Memory → Nat → Word
  | [], _ => 0
  | (k, w) :: m, a => if k = a then w else Memory.read m a

/-- The memory with nothing listed at `a`. -/
def Memory.erase (m : Memory) (a : Nat) : Memory := m.filter fun c => c.1 != a

/-- Put a cell in its place among rising addresses. -/
def Memory.insert : Memory → Nat → Word → Memory
  | [], a, v => [(a, v)]
  | (k, w) :: m, a, v => if a < k then (a, v) :: (k, w) :: m else (k, w) :: Memory.insert m a v

/-- Write one word (R53). A word 0x0000 is not listed, so equal memories are equal lists. -/
def Memory.write (m : Memory) (a : Nat) (v : Word) : Memory :=
  if v = 0 then Memory.erase m a else Memory.insert (Memory.erase m a) a v

/-- The words `ws` at `a`, `a + 1`, ... and 0x0000 everywhere else (R61, R272). -/
def Memory.ofWords : Nat → List Word → Memory
  | _, [] => []
  | a, w :: ws => if w = 0 then Memory.ofWords (a + 1) ws else (a, w) :: Memory.ofWords (a + 1) ws

/-- Every listed address lies above `a`. -/
def Memory.above (a : Nat) (m : Memory) : Bool := m.all fun c => decide (a < c.1)

/-- The canonical form: addresses strictly rise and no word 0x0000 is listed. -/
def Memory.wf : Memory → Bool
  | [] => true
  | (k, w) :: m => w != 0 && Memory.above k m && Memory.wf m

/-- Every listed address lies inside a memory of `size` words. -/
def Memory.within (size : Nat) (m : Memory) : Bool := m.all fun c => decide (c.1 < size)

/-- A write happens only while write-enable is asserted (R54). -/
def Memory.gatedWrite (writeEnable : Bool) (m : Memory) (a : Nat) (v : Word) : Memory :=
  if writeEnable then Memory.write m a v else m

/-! ### Registers -/

/-- `x[i]` (R17). -/
def readReg (i : Reg) (s : State) : Word := s.regs[i.toNat]

/-- `x[i] <- v` (R17). No register is hardwired (R21). -/
def writeReg (i : Reg) (v : Word) (s : State) : State := { s with regs := s.regs.set i.toNat v }

/-- One read port of the register file: an omitted index reads as 0x0000 (R148). -/
def readPort (i : Option Reg) (s : State) : Word :=
  match i with
  | some r => readReg r s
  | none => 0

/-- The combined register-file access RF (R148): both reads, then the write if it is enabled. -/
def rfAccess (ia ib : Option Reg) (wd : Reg) (data : Word) (we : Bool) (s : State) : (Word × Word) × State :=
  ((readPort ia s, readPort ib s), if we then writeReg wd data s else s)

/-! ### The other fields -/

/-- `pc <- t` (R17). -/
def setPc (t : Word) (s : State) : State := { s with pc := t }

/-- `sp <- t`. -/
def setSp (t : Word) (s : State) : State := { s with sp := t }

/-- `ir <- w`. -/
def setIr (w : Word) (s : State) : State := { s with ir := w }

/-- `dec <- d`. -/
def setDec (d : Decoded) (s : State) : State := { s with dec := some d }

/-- `halted <- true`; nothing clears it (R34). -/
def setHalted (s : State) : State := { s with halted := true }

/-- Enter the terminal state faulted; the mark is never cleared (R246). -/
def setFaulted (s : State) : State := { s with faulted := true }

/-- Write N, Z, C and V. -/
def setFlags (f : Flags) (s : State) : State := { s with flags := f }

/-- Replace the contents of instruction memory (program load only, R50). -/
def setImem (m : Memory) (s : State) : State := { s with imem := m }

/-- Replace the contents of data memory. -/
def setDmem (m : Memory) (s : State) : State := { s with dmem := m }

/-- SP decrement, modulo 2^16 (R152). -/
def decrementSp (s : State) : State := setSp (s.sp - 1) s

/-- SP increment, modulo 2^16 (R152). -/
def incrementSp (s : State) : State := setSp (s.sp + 1) s

/-! ### Faults -/

/-- `raise E(info)` (R17, R246): the step ends here, the state so far is what the fault leaves, and the core is
faulted. -/
def raise (cause : FaultCause) (s : State) : Host.Outcome State Fault Refusal :=
  .fault (.raised cause (setFaulted s))

/-- The code of a fault (R241). -/
def faultCode : FaultCause → Nat
  | .invalidOperation _ => 1
  | .invalidControlSignal _ => 2
  | .unknownInstruction _ => 3
  | .outOfBounds _ _ => 4

/-! ### Bounds-checked access (R56) -/

/-- `IMemRead(a)`. -/
def imemRead (a : Word) (s : State) : Except FaultCause Word :=
  if a.toNat < s.config.imemSize then .ok (Memory.read s.imem a.toNat) else .error (.outOfBounds .imem a.toNat)

/-- `MemRead(a, 1)`. -/
def memRead (a : Word) (s : State) : Except FaultCause Word :=
  if a.toNat < s.config.dmemSize then .ok (Memory.read s.dmem a.toNat) else .error (.outOfBounds .dmem a.toNat)

/-- `MemWrite(a, 1, v)`, with the data memory's write-enable asserted together with the write (R54). -/
def memWrite (a v : Word) (s : State) : Except FaultCause State :=
  if a.toNat < s.config.dmemSize then .ok (setDmem (Memory.gatedWrite true s.dmem a.toNat v) s)
  else .error (.outOfBounds .dmem a.toNat)

end Sys2Proof.Machine
end

