-- ==== Sys2Proof/Machine/Operands.lean ====
section
/-! DEFINITION. The operand forms: immediates, the effective address, the branch target. -/

namespace Sys2Proof.Machine

/-- `EA(base, off16)`: the sum modulo 2^16, before any bounds check (R55). The offset counts words (90_conflicts.md
C1) and a base with bit 15 set is a large unsigned address. -/
def effectiveAddress (base off : Word) : Word := base + off

/-- The RI immediate as LOAD, STORE and ADDI use it: `sign_extend(imm, 16)`, the identity (R89). -/
def riOffset (imm : Word) : Word := signExtend imm 16

/-- `imm[7:0]`, the low byte LOADI and LUI use (R90). -/
def lowByte (imm : Word) : BitVec 8 := imm.extractLsb' 0 8

/-- The write-back value IMM8 = `zext_16(imm[7:0])` (R151). -/
def imm8Value (imm : Word) : Word := (lowByte imm).setWidth 16

/-- The write-back value LUI = `imm[7:0] ++ old[7:0]` (R151). -/
def luiValue (imm old : Word) : Word := lowByte imm ++ lowByte old

/-- The target of BEQ, BNE, B and CALL from the already advanced PC (R210). -/
def branchTarget (pc imm : Word) : Word := pc + signExtend imm 8

/-- `SEQ`: the PC that fetch leaves (R152). -/
def nextSequential (pc0 : Word) : Word := pc0 + 1

end Sys2Proof.Machine
end

