-- ==== Sys2Proof/Machine/Flags.lean ====
section
/-! DEFINITION. Every flag computation of 40_alu.md. -/

namespace Sys2Proof.Machine

/-- All four flags clear: the state in which every ALU operation computes (R112). -/
def clearedFlags : Flags := { n := false, z := false, c := false, v := false }

/-- N and Z from the result (R113, R114), C and V as the operation gives them (R112). -/
def flagsOf (result : Word) (c v : Bool) : Flags :=
  { n := result.msb, z := result == 0, c := c, v := v }

/-- ADD: carry out of the unsigned sum (R116). -/
def addCarry (a b : Word) : Bool := decide (a.toNat + b.toNat > 0xFFFF)

/-- ADD: equal operand signs and a result of the other sign (R116). -/
def addOverflow (a b result : Word) : Bool := a.msb == b.msb && result.msb != a.msb

/-- SUB: "no borrow" (R117). -/
def subCarry (a b : Word) : Bool := decide (a.toNat ≥ b.toNat)

/-- SUB: operand signs differ and the result's sign is not the minuend's (R117). -/
def subOverflow (a b result : Word) : Bool := a.msb != b.msb && result.msb != a.msb

/-- SHFT: the amount, the low four bits of `b` (R118). -/
def shiftAmount (b : Word) : Nat := (b.extractLsb' 0 4).toNat

/-- SHFT: right when bit 15 of `b` is 1 (R118). -/
def shiftsRight (b : Word) : Bool := b.msb

/-- SHFT: the shifted value; a right shift is logical (R118). An amount of 0 leaves `a` (R119). -/
def shiftResult (a b : Word) : Word :=
  if shiftAmount b = 0 then a
  else if shiftsRight b then a >>> shiftAmount b
  else a <<< shiftAmount b

/-- SHFT: the last bit shifted out. For an amount of 0 it is 0 (R119), or, under the parameter SHIFT0_KEEPS_CARRY,
the carry from before the operation, `old` (X1). -/
def shiftCarry (keeps old : Bool) (a b : Word) : Bool :=
  if shiftAmount b = 0 then keeps && old
  else if shiftsRight b then a.getLsbD (shiftAmount b - 1)
  else a.getLsbD (16 - shiftAmount b)

/-- The packed status register: bit 3 N, bit 2 Z, bit 1 C, bit 0 V (R33). For accessors and fixtures only. -/
def packStatus (f : Flags) : BitVec 4 :=
  BitVec.ofBool f.n ++ BitVec.ofBool f.z ++ BitVec.ofBool f.c ++ BitVec.ofBool f.v

end Sys2Proof.Machine
end

