-- ==== Sys2Proof/Machine/Alu.lean ====
section
/-! DEFINITION. The ALU (40_alu.md): a 3-bit selector, two operands, one result, four flags. -/

namespace Sys2Proof.Machine

/-- The selector values (R110). -/
def selAdd : BitVec 3 := 0b000#3
/-- SUB (R110). -/
def selSub : BitVec 3 := 0b001#3
/-- AND (R110). -/
def selAnd : BitVec 3 := 0b010#3
/-- OR (R110). -/
def selOr : BitVec 3 := 0b011#3
/-- SHFT (R110). -/
def selShft : BitVec 3 := 0b100#3

/-- ADD: result, carry, overflow (R116). -/
def aluAdd (a b : Word) : Word × Bool × Bool := (a + b, addCarry a b, addOverflow a b (a + b))

/-- SUB: result, carry, overflow (R117). -/
def aluSub (a b : Word) : Word × Bool × Bool := (a - b, subCarry a b, subOverflow a b (a - b))

/-- AND (R120). -/
def aluAnd (a b : Word) : Word × Bool × Bool := (a &&& b, false, false)

/-- OR (R121). -/
def aluOr (a b : Word) : Word × Bool × Bool := (a ||| b, false, false)

/-- SHFT (R118, R119, X1). -/
def aluShft (keeps old : Bool) (a b : Word) : Word × Bool × Bool :=
  (shiftResult a b, shiftCarry keeps old a b, false)

/-- `OP[sel](a, b)` (R112), none for the three selectors that name no operation (R111). `old` is the carry from before
the flags were cleared, which only SHFT under SHIFT0_KEEPS_CARRY looks at. -/
def aluOperation (keeps old : Bool) (sel : BitVec 3) (a b : Word) : Option (Word × Bool × Bool) :=
  match sel with
  | 0b000#3 => some (aluAdd a b)
  | 0b001#3 => some (aluSub a b)
  | 0b010#3 => some (aluAnd a b)
  | 0b011#3 => some (aluOr a b)
  | 0b100#3 => some (aluShft keeps old a b)
  | _ => none

/-- `ALU(sel, a, b)` (R112): an invalid selector faults before any flag changes (R111); else the flags are cleared,
the operation computes, and the flags are set from it. -/
def alu (sel : BitVec 3) (a b : Word) (s : State) : Except FaultCause (Word × State) :=
  match aluOperation s.config.shift0KeepsCarry s.flags.c sel a b with
  | none => .error (.invalidControlSignal sel)
  | some (result, c, v) => .ok (result, setFlags (flagsOf result c v) (setFlags clearedFlags s))

/-- The selector a name of {ADD, SUB, AND, OR, SHFT} stands for, at the ALU's name-level interface (R242). -/
def selectorOfName (name : String) : Except FaultCause (BitVec 3) :=
  if name = "ADD" then .ok selAdd
  else if name = "SUB" then .ok selSub
  else if name = "AND" then .ok selAnd
  else if name = "OR" then .ok selOr
  else if name = "SHFT" then .ok selShft
  else .error (.invalidOperation name)

/-- The ALU asked for an operation by name: any other name fails before any computation (R242). -/
def aluByName (name : String) (a b : Word) (s : State) : Except FaultCause (Word × State) :=
  match selectorOfName name with
  | .error e => .error e
  | .ok sel => alu sel a b s

/-- Drive the ALU once and write its result to `x[rd]` (R150, write-back source ALU). -/
def aluWriteBack (sel : BitVec 3) (rd : Reg) (a b : Word) (s : State) : Host.Outcome State Fault Refusal :=
  match alu sel a b s with
  | .error e => raise e s
  | .ok (result, t) => .next (writeReg rd result t)

end Sys2Proof.Machine
end

