-- ==== Sys2Proof/Machine/AluInstructions.lean ====
section
/-! DEFINITION. ADDI, ADD, SUB, AND, OR, SHFT (43_alu_instructions.md): the execute phase. Each drives the ALU once and
writes all four flags. -/

namespace Sys2Proof.Machine

/-- ADDI (R190). -/
def execAddi (rd ra : Reg) (imm : Word) (s : State) : Host.Outcome State Fault Refusal :=
  aluWriteBack selAdd rd (readReg ra s) (riOffset imm) s

/-- ADD (R191). -/
def execAdd (rd ra rb : Reg) (s : State) : Host.Outcome State Fault Refusal :=
  aluWriteBack selAdd rd (readReg ra s) (readReg rb s) s

/-- SUB (R192). -/
def execSub (rd ra rb : Reg) (s : State) : Host.Outcome State Fault Refusal :=
  aluWriteBack selSub rd (readReg ra s) (readReg rb s) s

/-- AND (R193). -/
def execAnd (rd ra rb : Reg) (s : State) : Host.Outcome State Fault Refusal :=
  aluWriteBack selAnd rd (readReg ra s) (readReg rb s) s

/-- OR (R194). -/
def execOr (rd ra rb : Reg) (s : State) : Host.Outcome State Fault Refusal :=
  aluWriteBack selOr rd (readReg ra s) (readReg rb s) s

/-- SHFT (R195): amount and direction from `x[rb]`. -/
def execShft (rd ra rb : Reg) (s : State) : Host.Outcome State Fault Refusal :=
  aluWriteBack selShft rd (readReg ra s) (readReg rb s) s

end Sys2Proof.Machine
end

