-- ==== Sys2Proof/Machine/ControlTransfer.lean ====
section
/-! DEFINITION. BEQ, BNE, B, CALL, RET, HALT (44_control_transfer.md): the execute phase, in which `pc` already holds
the address of the instruction plus one (R18). None of them writes a flag. A target outside instruction memory is not
checked when the PC is written (R219). -/

namespace Sys2Proof.Machine

/-- BEQ (R212): taken when Z is 1. -/
def execBeq (imm : Word) (s : State) : Host.Outcome State Fault Refusal :=
  .next (if s.flags.z then setPc (branchTarget s.pc imm) s else s)

/-- BNE (R213): taken when Z is 0. -/
def execBne (imm : Word) (s : State) : Host.Outcome State Fault Refusal :=
  .next (if s.flags.z then s else setPc (branchTarget s.pc imm) s)

/-- B (R214). -/
def execB (imm : Word) (s : State) : Host.Outcome State Fault Refusal :=
  .next (setPc (branchTarget s.pc imm) s)

/-- CALL (R216): the decrement comes first, so it stays done when the push faults (R247). -/
def execCall (imm : Word) (s : State) : Host.Outcome State Fault Refusal :=
  match memWrite (decrementSp s).sp (decrementSp s).pc (decrementSp s) with
  | .error e => raise e (decrementSp s)
  | .ok t => .next (setPc (branchTarget t.pc imm) t)

/-- RET (R217): the read comes first, so neither `pc` nor `sp` changes when it faults (R247). -/
def execRet (s : State) : Host.Outcome State Fault Refusal :=
  match memRead s.sp s with
  | .error e => raise e s
  | .ok v => .next (incrementSp (setPc v s))

/-- HALT (R218). -/
def execHalt (s : State) : Host.Outcome State Fault Refusal :=
  .next (setHalted s)

end Sys2Proof.Machine
end

