-- ==== Sys2Proof/Machine/DataTransfer.lean ====
section
/-! DEFINITION. LOADI, LUI, LOAD, STORE (42_data_transfer.md): the execute phase. None of them writes a flag (R153). -/

namespace Sys2Proof.Machine

/-- LOADI (R170): the whole register is written, its upper byte with 0x00. -/
def execLoadi (rd : Reg) (imm : Word) (s : State) : Host.Outcome State Fault Refusal :=
  .next (writeReg rd (imm8Value imm) s)

/-- LUI (R171): the old low byte is kept; the read precedes the write (R149). -/
def execLui (rd : Reg) (imm : Word) (s : State) : Host.Outcome State Fault Refusal :=
  .next (writeReg rd (luiValue imm (readReg rd s)) s)

/-- LOAD (R172). -/
def execLoad (rd ra : Reg) (imm : Word) (s : State) : Host.Outcome State Fault Refusal :=
  match memRead (effectiveAddress (readReg ra s) (riOffset imm)) s with
  | .error e => raise e s
  | .ok v => .next (writeReg rd v s)

/-- STORE (R173): `rd` is the base, `ra` the data; no register is written. -/
def execStore (rd ra : Reg) (imm : Word) (s : State) : Host.Outcome State Fault Refusal :=
  match memWrite (effectiveAddress (readReg rd s) (riOffset imm)) (readReg ra s) s with
  | .error e => raise e s
  | .ok t => .next t

end Sys2Proof.Machine
end

