-- ==== Sys2Proof/Machine/Dispatch.lean ====
section
/-! DEFINITION. Execute (R145): one arm per instruction. -/

namespace Sys2Proof.Machine

def exec (i : Instr) (s : State) : Host.Outcome State Fault Refusal :=
  match i with
  | .loadi rd imm => Sys2Proof.Machine.execLoadi rd imm s
  | .lui rd imm => Sys2Proof.Machine.execLui rd imm s
  | .load rd ra imm => Sys2Proof.Machine.execLoad rd ra imm s
  | .store rd ra imm => Sys2Proof.Machine.execStore rd ra imm s
  | .addi rd ra imm => Sys2Proof.Machine.execAddi rd ra imm s
  | .add rd ra rb => Sys2Proof.Machine.execAdd rd ra rb s
  | .sub rd ra rb => Sys2Proof.Machine.execSub rd ra rb s
  | .and rd ra rb => Sys2Proof.Machine.execAnd rd ra rb s
  | .or rd ra rb => Sys2Proof.Machine.execOr rd ra rb s
  | .shft rd ra rb => Sys2Proof.Machine.execShft rd ra rb s
  | .beq imm => Sys2Proof.Machine.execBeq imm s
  | .bne imm => Sys2Proof.Machine.execBne imm s
  | .b imm => Sys2Proof.Machine.execB imm s
  | .call imm => Sys2Proof.Machine.execCall imm s
  | .ret => Sys2Proof.Machine.execRet s
  | .halt => Sys2Proof.Machine.execHalt s

end Sys2Proof.Machine
end

