-- ==== Sys2Proof/Machine/Fetch.lean ====
section
/-! DEFINITION. The fetch and decode phases (41_cycle.md), and placing a word where the next fetch reads it. -/

namespace Sys2Proof.Machine

/-- Fetch (R143): the read may fault, before `ir` or `pc` changes; the increment wraps modulo 2^16. -/
def fetch (s : State) : Except FaultCause State :=
  match imemRead s.pc s with
  | .error e => .error e
  | .ok w => .ok (setPc (nextSequential s.pc) (setIr w s))

/-- Decode (R144): `dec <- decode(ir)`. A mnemonic outside the sixteen would raise UnknownInstruction with the word
(R244). The answer is the instruction to execute and the state execute begins in. -/
def decodePhase (s : State) : Except FaultCause (Instr × State) :=
  match decode s.ir with
  | none => .error (.unknownInstruction s.ir)
  | some d => .ok (instrOf d, setDec d s)

/-- The state with the instruction whose bits are the low `nbits` bits of `w` at the instruction-memory address the
next fetch reads. -/
def placeAtPc (s : State) (nbits w : Nat) : State :=
  setImem (Memory.write s.imem s.pc.toNat (BitVec.ofNat 16 (w % 2 ^ nbits))) s

end Sys2Proof.Machine
end

