-- ==== Sys2Proof/Machine/Step.lean ====
section
/-! DEFINITION. The step (R140, R141). -/

namespace Sys2Proof.Machine

/-- Fetch, decode and execute, in that order; the first fault ends the step (R141, R248). -/
def cycle (s : State) : Host.Outcome State Fault Refusal :=
  match fetch s with
  | .error e => raise e s
  | .ok t =>
    match decodePhase t with
    | .error e => raise e t
    | .ok (i, u) => exec i u

/-- One step (R141): a faulted core has none (R246), a halted core does not change (R142). -/
def step (s : State) : Host.Outcome State Fault Refusal :=
  if s.faulted then .fault .noStep
  else if s.halted then .next s
  else cycle s

/-- What the step reports to the host: Advanced, NotAdvanced or the fault (R140). -/
def stepReport (s : State) : StepReport :=
  match step s with
  | .next t => if s.halted then .notAdvanced else .advanced t
  | .fault f => .stopped f
  | .refused r => .refused r

/-- `s` with the instruction whose bits are `w` where `step` fetches its next one: at `IMEM[pc]`. -/
def State.withFetchWord (s : State) (nbits w : Nat) : State := placeAtPc s nbits w

end Sys2Proof.Machine
end

