-- ==== Sys2Proof/Machine/Datapath.lean ====
section
/-! DEFINITION. The datapath and its control signals (R150 to R152): which field drives each register-file port, the
ALU's inputs, the write-back source, the memory access, the next PC and the SP, for each mnemonic. The instruction
rules govern (R150); that the two agree is one of the statements. -/

namespace Sys2Proof.Machine

/-- Which decoded field drives a register-file read port. -/
inductive PortIndex where
  | off
  | rd
  | ra
  | rb
deriving DecidableEq, Repr

/-- The ALU's `b` input (R151). -/
inductive AluB where
  | portB
  | imm
deriving DecidableEq, Repr

/-- The register-file write: off, or `rd` from one of the four sources (R151). -/
inductive WriteBack where
  | off
  | imm8
  | lui
  | mem
  | alu
deriving DecidableEq, Repr

/-- The data-memory access. -/
inductive MemAccess where
  | off
  /-- read DMEM[EA(A, imm)] -/
  | readEa
  /-- write DMEM[EA(A, imm)] <- B -/
  | writeEa
  /-- write DMEM[sp] <- pc, after the SP decrement -/
  | push
  /-- read DMEM[sp], before the SP increment -/
  | pop
deriving DecidableEq, Repr

/-- The next-PC source (R152). -/
inductive NextPc where
  | seq
  | br
  /-- BR if Z = 1 else SEQ -/
  | brIfZero
  /-- BR if Z = 0 else SEQ -/
  | brIfNotZero
  | mem
deriving DecidableEq, Repr

/-- The SP operation (R152). -/
inductive SpOp where
  | hold
  | decrement
  | increment
deriving DecidableEq, Repr

/-- One row of R150's table. -/
structure Control where
  portA : PortIndex
  portB : PortIndex
  /-- the selector and the `b` input, or none: the ALU performs no operation -/
  alu : Option (BitVec 3 × AluB)
  write : WriteBack
  memory : MemAccess
  nextPc : NextPc
  sp : SpOp
  halts : Bool
deriving DecidableEq, Repr

/-- The table of R150. -/
def controlOf : Mnemonic → Control
  | .LOADI => ⟨.off, .off, none, .imm8, .off, .seq, .hold, false⟩
  | .LUI => ⟨.rd, .off, none, .lui, .off, .seq, .hold, false⟩
  | .LOAD => ⟨.ra, .off, none, .mem, .readEa, .seq, .hold, false⟩
  | .STORE => ⟨.rd, .ra, none, .off, .writeEa, .seq, .hold, false⟩
  | .ADDI => ⟨.ra, .off, some (0b000#3, .imm), .alu, .off, .seq, .hold, false⟩
  | .ADD => ⟨.ra, .rb, some (0b000#3, .portB), .alu, .off, .seq, .hold, false⟩
  | .SUB => ⟨.ra, .rb, some (0b001#3, .portB), .alu, .off, .seq, .hold, false⟩
  | .AND => ⟨.ra, .rb, some (0b010#3, .portB), .alu, .off, .seq, .hold, false⟩
  | .OR => ⟨.ra, .rb, some (0b011#3, .portB), .alu, .off, .seq, .hold, false⟩
  | .SHFT => ⟨.ra, .rb, some (0b100#3, .portB), .alu, .off, .seq, .hold, false⟩
  | .BEQ => ⟨.off, .off, none, .off, .off, .brIfZero, .hold, false⟩
  | .BNE => ⟨.off, .off, none, .off, .off, .brIfNotZero, .hold, false⟩
  | .B => ⟨.off, .off, none, .off, .off, .br, .hold, false⟩
  | .CALL => ⟨.off, .off, none, .off, .push, .br, .decrement, false⟩
  | .RET => ⟨.off, .off, none, .off, .pop, .mem, .increment, false⟩
  | .HALT => ⟨.off, .off, none, .off, .off, .seq, .hold, true⟩

/-- The register index a port receives. -/
def portIndex (p : PortIndex) (d : Decoded) : Option Reg :=
  match p with
  | .off => none
  | .rd => some d.rd
  | .ra => some d.ra
  | .rb => some d.rb

/-- The ALU, if the control drives it: its result, and the state with the flags it writes. -/
def datapathAlu (c : Control) (d : Decoded) (a b : Word) (s : State) : Except FaultCause (Word × State) :=
  match c.alu with
  | none => .ok (0, s)
  | some (sel, .portB) => alu sel a b s
  | some (sel, .imm) => alu sel a (signExtend d.imm 16) s

/-- The memory access, if any: the word read, and the state with the word written. -/
def datapathMemory (c : Control) (d : Decoded) (a b : Word) (s : State) : Except FaultCause (Word × State) :=
  match c.memory with
  | .off => .ok (0, s)
  | .readEa =>
    match memRead (effectiveAddress a (signExtend d.imm 16)) s with
    | .error e => .error e
    | .ok v => .ok (v, s)
  | .writeEa =>
    match memWrite (effectiveAddress a (signExtend d.imm 16)) b s with
    | .error e => .error e
    | .ok t => .ok (0, t)
  | .push =>
    match memWrite s.sp s.pc s with
    | .error e => .error e
    | .ok t => .ok (0, t)
  | .pop =>
    match memRead s.sp s with
    | .error e => .error e
    | .ok v => .ok (v, s)

/-- The register-file write, through the combined access RF with no read (R148). -/
def datapathWrite (c : Control) (d : Decoded) (a aluResult memWord : Word) (s : State) : State :=
  match c.write with
  | .off => (rfAccess none none d.rd 0 false s).2
  | .imm8 => (rfAccess none none d.rd (imm8Value d.imm) true s).2
  | .lui => (rfAccess none none d.rd (luiValue d.imm a) true s).2
  | .mem => (rfAccess none none d.rd memWord true s).2
  | .alu => (rfAccess none none d.rd aluResult true s).2

/-- The PC multiplexer: the value of the next PC (R152). -/
def datapathPc (c : Control) (d : Decoded) (memWord : Word) (s : State) : Word :=
  match c.nextPc with
  | .seq => s.pc
  | .br => branchTarget s.pc d.imm
  | .brIfZero => if s.flags.z then branchTarget s.pc d.imm else s.pc
  | .brIfNotZero => if s.flags.z then s.pc else branchTarget s.pc d.imm
  | .mem => memWord

/-- The SP decrement, which comes before the memory access. -/
def datapathSpBefore (c : Control) (s : State) : State :=
  match c.sp with
  | .decrement => decrementSp s
  | .hold => s
  | .increment => s

/-- The SP increment, which comes after the memory access. -/
def datapathSpAfter (c : Control) (s : State) : State :=
  match c.sp with
  | .increment => incrementSp s
  | .hold => s
  | .decrement => s

/-- HALT sets the halted flag. -/
def datapathHalt (c : Control) (s : State) : State := if c.halts then setHalted s else s

/-- Execute as the datapath does it: read both ports (R148), drive the ALU, move the SP down, access data memory,
write back, then write the PC, the SP upward and the halted flag. -/
def datapath (c : Control) (d : Decoded) (s : State) : Host.Outcome State Fault Refusal :=
  let ab := (rfAccess (portIndex c.portA d) (portIndex c.portB d) 0 0 false s).1
  match datapathAlu c d ab.1 ab.2 s with
  | .error e => raise e s
  | .ok (aluResult, t) =>
    match datapathMemory c d ab.1 ab.2 (datapathSpBefore c t) with
    | .error e => raise e (datapathSpBefore c t)
    | .ok (memWord, u) =>
      let v := datapathWrite c d ab.1 aluResult memWord u
      .next (datapathHalt c (datapathSpAfter c (setPc (datapathPc c d memWord v) v)))

end Sys2Proof.Machine
end

