-- ==== Sys2Proof/Machine/HostPort.lean ====
section
/-! DEFINITION. What the host may read between steps (R155, R156), and driving the core step by step (R154, R157,
R158). Reading changes no state. -/

namespace Sys2Proof.Machine

/-- The PC observer (R155). -/
def observePc (s : State) : Word := s.pc

/-- The SP observer (R155). -/
def observeSp (s : State) : Word := s.sp

/-- The instruction-register observer (R155). -/
def observeIr (s : State) : Word := s.ir

/-- The decoded-instruction observer (R155): none before the first step (R31). -/
def observeDecoded (s : State) : Option Decoded := s.dec

/-- The running/halted status (R155), with the spec's third state faulted (R35). -/
def observeStatus (s : State) : ControlState :=
  if s.faulted then .faulted else if s.halted then .halted else .running

/-- The Negative flag observer (R155). -/
def observeNegative (s : State) : Bool := s.flags.n

/-- The Zero flag observer (R155). -/
def observeZero (s : State) : Bool := s.flags.z

/-- The Carry flag observer (R155). -/
def observeCarry (s : State) : Bool := s.flags.c

/-- The Overflow flag observer (R155). -/
def observeOverflow (s : State) : Bool := s.flags.v

/-- The four flags packed (R33). -/
def observeFlags (s : State) : BitVec 4 := packStatus s.flags

/-- One register's value (R155). -/
def observeRegister (i : Reg) (s : State) : Word := readReg i s

/-- One word of data memory, through the memory contract's read (R156). -/
def observeData (a : Word) (s : State) : Except FaultCause Word := memRead a s

/-- Step until the core reports halted or faults, at most `fuel` times, counting the steps that returned Advanced
(R154, R157). Where the steps allowed reach neither end, the answer is that the run did not end (X11). -/
def runFrom : Nat → Nat → State → RunEnd
  | 0, k, s => if s.faulted then .faulted k .noStep else if s.halted then .halted k s else .didNotEnd
  | fuel + 1, k, s =>
    match stepReport s with
    | .advanced t => runFrom fuel (k + 1) t
    | .notAdvanced => .halted k s
    | .stopped f => .faulted k f
    | .refused r => .refused r

/-- A run of at most `fuel` steps (R157, R158, X11). -/
def run (fuel : Nat) (s : State) : RunEnd := runFrom fuel 0 s

end Sys2Proof.Machine
end

