-- ==== Sys2Proof/Machine/Build.lean ====
section
/-! DEFINITION. Building the core and loading its program (70_reset_and_hazards.md). The host does both before the
first step; no step does either (R273). -/

namespace Sys2Proof.Machine

/-- Program load (R272): the words from address 0, 0x0000 after them, `pc <- 0`. Too long a program faults and no
state results. -/
def loadProgram (program : List Word) (s : State) : Except FaultCause State :=
  if program.length ≤ s.config.imemSize then .ok (setPc 0 (setImem (Memory.ofWords 0 program) s))
  else .error (.outOfBounds .imem s.config.imemSize)

/-- The core before its program is loaded (R270, R271). -/
def construct (p : Params) : State :=
  { config := p.config, regs := p.regInit, pc := 0, sp := p.spInit, ir := 0, dec := none, halted := false,
    faulted := false, flags := p.flagsInit, imem := Memory.ofWords 0 [], dmem := Memory.ofWords 0 p.dmemInit }

/-- `build` (R270): without a program, instruction memory is all 0x0000. -/
def build (p : Params) : Except FaultCause State :=
  match p.program with
  | some program => loadProgram program (construct p)
  | none => .ok (construct p)

end Sys2Proof.Machine
end

