-- ==== Sys2Proof/Safety.lean ====
section
/-! DEFINITION. The terms in which claims are stated: the invariant, what is kept, what an ALU operation must leave,
and which states a core can be in. -/

namespace Sys2Proof.Machine

/-! ### The invariant -/

/-- The core takes steps: neither halted nor faulted (R35). -/
def Running (s : State) : Prop := s.halted = false ∧ s.faulted = false

/-- `dec` is the decoding of `ir`, and before the first step there is neither (R30, R31). -/
def decAgrees (s : State) : Bool :=
  match s.dec with
  | none => s.ir == 0
  | some d => decode s.ir == some d

/-- A halted core's last instruction is HALT (R34). -/
def haltAgrees (s : State) : Bool :=
  !s.halted || (match s.dec with | some d => d.mnemonic == .HALT | none => false)

/-- What holds of a core that was built and stepped: legal sizes, both memories canonical and inside their sizes,
`dec` and `halted` agreeing with what was executed, and no fault raised. -/
abbrev Inv (s : State) : Prop :=
  s.config.legal = true ∧ Memory.wf s.imem = true ∧ Memory.within s.config.imemSize s.imem = true ∧
    Memory.wf s.dmem = true ∧ Memory.within s.config.dmemSize s.dmem = true ∧ decAgrees s = true ∧
    haltAgrees s = true ∧ s.faulted = false

/-- The states of the runs of a core the host builds with legal parameters (R157). -/
inductive Reachable : State → Prop where
  | built {p : Params} {s : State} : p.legal = true → build p = .ok s → Reachable s
  | stepped {s t : State} : Reachable s → step s = .next t → Reachable t

/-- A safe run: none of its first `n` steps faults or is refused. -/
def SafeFor : Nat → State → Prop
  | 0, _ => True
  | n + 1, s => ∃ t, step s = .next t ∧ SafeFor n t

/-! ### What is kept -/

/-- Every register reads as before. -/
def RegsKept (s t : State) : Prop := ∀ r, readReg r t = readReg r s

/-- Every register but `rd` reads as before. -/
def RegsKeptBut (rd : Reg) (s t : State) : Prop := ∀ r, r ≠ rd → readReg r t = readReg r s

/-- Every word of data memory reads as before. -/
def DataKept (s t : State) : Prop := ∀ a, Memory.read t.dmem a = Memory.read s.dmem a

/-- Every word of data memory but the one at `x` reads as before. -/
def DataKeptBut (x : Nat) (s t : State) : Prop := ∀ a, a ≠ x → Memory.read t.dmem a = Memory.read s.dmem a

/-- Everything no execute phase writes: the parameters, the instruction memory, `ir`, `dec` and the faulted mark. -/
def ContextKept (s t : State) : Prop :=
  t.config = s.config ∧ (∀ a, Memory.read t.imem a = Memory.read s.imem a) ∧ t.ir = s.ir ∧ t.dec = s.dec ∧
    t.faulted = s.faulted

/-- The PC, the SP and the halted flag are as before. -/
def ControlKept (s t : State) : Prop := t.pc = s.pc ∧ t.sp = s.sp ∧ t.halted = s.halted

/-- The value of the next PC when a branch or call goes from the already advanced `pc` by the signed low byte of its
immediate (R210). -/
def GoesTo (pc imm target : Word) : Prop :=
  (target.toNat : Int) = ((pc.toNat : Int) + (imm.setWidth 8).toInt) % 65536

/-! ### Two states that differ in flags no instruction tests -/

/-- The same state but for N, C and V (R211). -/
def SameButUntestedFlags (s t : State) : Prop := t = { s with flags := t.flags } ∧ t.flags.z = s.flags.z

/-- Two outcomes of the same kind whose states are the same but for N, C and V, neither of them a refusal. -/
def OutcomesAgree : Host.Outcome State Fault Refusal → Host.Outcome State Fault Refusal → Prop
  | .next s, .next t => SameButUntestedFlags s t
  | .fault (.raised c s), .fault (.raised e t) => c = e ∧ SameButUntestedFlags s t
  | .fault .noStep, .fault .noStep => True
  | _, _ => False

/-! ### What an ALU operation leaves, in the arithmetic of 40_alu.md -/

/-- N is bit 15 of the result and Z says it is 0 (R113, R114). -/
def NegativeZero (r : Word) (f : Flags) : Prop := f.n = r.getLsbD 15 ∧ (f.z = true ↔ r.toNat = 0)

/-- ADD (R116). -/
def AddOutcome (a b r : Word) (f : Flags) : Prop :=
  r.toNat = (a.toNat + b.toNat) % 65536 ∧ NegativeZero r f ∧ (f.c = true ↔ a.toNat + b.toNat > 65535) ∧
    (f.v = true ↔ a.getLsbD 15 = b.getLsbD 15 ∧ r.getLsbD 15 ≠ a.getLsbD 15)

/-- SUB (R117). -/
def SubOutcome (a b r : Word) (f : Flags) : Prop :=
  (r.toNat : Int) = ((a.toNat : Int) - (b.toNat : Int)) % 65536 ∧ NegativeZero r f ∧
    (f.c = true ↔ a.toNat ≥ b.toNat) ∧ (f.v = true ↔ a.getLsbD 15 ≠ b.getLsbD 15 ∧ r.getLsbD 15 ≠ a.getLsbD 15)

/-- AND (R120). -/
def AndOutcome (a b r : Word) (f : Flags) : Prop :=
  (∀ i, i < 16 → r.getLsbD i = (a.getLsbD i && b.getLsbD i)) ∧ NegativeZero r f ∧ f.c = false ∧ f.v = false

/-- OR (R121). -/
def OrOutcome (a b r : Word) (f : Flags) : Prop :=
  (∀ i, i < 16 → r.getLsbD i = (a.getLsbD i || b.getLsbD i)) ∧ NegativeZero r f ∧ f.c = false ∧ f.v = false

/-- SHFT (R118, R119); `keeps` is SHIFT0_KEEPS_CARRY, false by the spec's rule, and `old` the carry before (X1). -/
def ShftOutcome (keeps old : Bool) (a b r : Word) (f : Flags) : Prop :=
  NegativeZero r f ∧ f.v = false ∧
    (if b.toNat % 16 = 0 then r = a ∧ (f.c = true ↔ keeps = true ∧ old = true)
     else if b.getLsbD 15 = true then
       r.toNat = a.toNat / 2 ^ (b.toNat % 16) ∧ f.c = a.getLsbD (b.toNat % 16 - 1)
     else
       r.toNat = a.toNat * 2 ^ (b.toNat % 16) % 65536 ∧ f.c = a.getLsbD (16 - b.toNat % 16))

end Sys2Proof.Machine
end

