-- ==== Sys2Proof/Certificates/Slice0/Obligations.lean ====
section
/-! DEFINITION. The statements for the provers. Those that rest on a rule the spec marks as derived, or on a value of
the assumption log, say so. -/

open Sys2Proof Sys2Proof.Machine

/-! ### Encoding -/

/-- For every well-formed instruction, decoding its encoding gives it back, at every operand value (R95). -/
def Obligations.DecodeOfEncodeIsTheInstruction : Prop :=
  ∀ i : Instr, i.wellFormed = true → decodeInstr (encode i) = some i

/-- Every word decodes, to a well-formed instruction whose encoding is the word with its reserved bits cleared: bits
11:8 of format J (opcodes 0xA to 0xD), bits 11:0 of format N (0xE, 0xF). Rests on the spec's derived R93. -/
def Obligations.EncodeOfDecodeClearsReservedBits : Prop :=
  ∀ w : Word, ∃ i : Instr, decodeInstr w = some i ∧ i.wellFormed = true ∧
    (encode i).toNat =
      (if w.toNat / 4096 < 10 then w.toNat
       else if w.toNat / 4096 < 14 then w.toNat / 4096 * 4096 + w.toNat % 256
       else w.toNat / 4096 * 4096)

/-- Reserved bits are ignored on decode and written as 0 (R92): in format J for opcodes 0xA to 0xD, in format N for
0xE and 0xF. -/
def Obligations.ReservedBitsAreIgnored : Prop :=
  (∀ (op x : BitVec 4) (k : BitVec 8), 10 ≤ op.toNat → op.toNat ≤ 13 →
    decode (BitVec.ofNat 16 (4096 * op.toNat + 256 * x.toNat + k.toNat)) =
      decode (BitVec.ofNat 16 (4096 * op.toNat + k.toNat))) ∧
  (∀ (op : BitVec 4) (x : BitVec 12), 14 ≤ op.toNat →
    decode (BitVec.ofNat 16 (4096 * op.toNat + x.toNat)) = decode (BitVec.ofNat 16 (4096 * op.toNat))) ∧
  (∀ imm : Word,
    (encode (.beq imm)).toNat / 256 % 16 = 0 ∧ (encode (.bne imm)).toNat / 256 % 16 = 0 ∧
    (encode (.b imm)).toNat / 256 % 16 = 0 ∧ (encode (.call imm)).toNat / 256 % 16 = 0) ∧
  (encode .ret).toNat % 4096 = 0 ∧ (encode .halt).toNat % 4096 = 0

/-- The opcode map and the fields of each format (R82 to R87), in the arithmetic of the word. -/
def Obligations.DecodedFieldsFollowTheFormat : Prop :=
  ∀ w : Word, ∃ d, decode w = some d ∧
    [Mnemonic.LOADI, .LUI, .LOAD, .STORE, .ADDI, .ADD, .SUB, .AND, .OR, .SHFT, .BEQ, .BNE, .B, .CALL, .RET,
      .HALT][w.toNat / 4096]? = some d.mnemonic ∧
    (if w.toNat / 4096 < 2 then
       d.rd.toNat = w.toNat / 256 % 16 ∧ d.ra = 0 ∧ d.rb = 0 ∧ d.imm.toNat = w.toNat % 256
     else if w.toNat / 4096 < 5 then
       d.rd.toNat = w.toNat / 256 % 16 ∧ d.ra.toNat = w.toNat / 16 % 16 ∧ d.rb = 0 ∧
         d.imm.toInt = (if w.toNat % 16 < 8 then (w.toNat % 16 : Int) else (w.toNat % 16 : Int) - 16)
     else if w.toNat / 4096 < 10 then
       d.rd.toNat = w.toNat / 256 % 16 ∧ d.ra.toNat = w.toNat / 16 % 16 ∧ d.rb.toNat = w.toNat % 16 ∧ d.imm = 0
     else if w.toNat / 4096 < 14 then
       d.rd = 0 ∧ d.ra = 0 ∧ d.rb = 0 ∧ d.imm.toNat = w.toNat % 256
     else d.rd = 0 ∧ d.ra = 0 ∧ d.rb = 0 ∧ d.imm = 0)

/-- Words of 95_test_vectors.md section 2.2 decode to the instructions listed there. -/
def Obligations.SampleWordsDecode : Prop :=
  decodeInstr 0x12FF#16 = some (.lui 2 0x00FF#16) ∧ decodeInstr 0x212F#16 = some (.load 1 2 0xFFFF#16) ∧
  decodeInstr 0x3213#16 = some (.store 2 1 0x0003#16) ∧ decodeInstr 0x4187#16 = some (.addi 1 8 0x0007#16) ∧
  decodeInstr 0x6201#16 = some (.sub 2 0 1) ∧ decodeInstr 0xAF03#16 = some (.beq 0x0003#16) ∧
  decodeInstr 0xD080#16 = some (.call 0x0080#16) ∧ decodeInstr 0xE123#16 = some .ret ∧
  decodeInstr 0xFFFF#16 = some .halt

/-- `sign_extend(v, bits)` keeps the low `bits` bits and repeats the top one of them above (part of R16). -/
def Obligations.SignExtendRepeatsTheTopBit : Prop :=
  ∀ (v : Word) (bits i : Nat), 1 ≤ bits → bits ≤ 16 → i < 16 →
    (signExtend v bits).getLsbD i = v.getLsbD (min i (bits - 1))

/-! ### The ALU -/

/-- ALU ADD, selector 0b000 (R116): result, carry and overflow; only the flags change. -/
def Obligations.AluAddComputesSum : Prop :=
  ∀ (a b : Word) (s : State), ∃ r t, alu 0b000#3 a b s = .ok (r, t) ∧ AddOutcome a b r t.flags ∧
    t = { s with flags := t.flags }

/-- ALU SUB, selector 0b001 (R117). -/
def Obligations.AluSubComputesDifference : Prop :=
  (∀ (a b : Word) (s : State), ∃ r t, alu 0b001#3 a b s = .ok (r, t) ∧ SubOutcome a b r t.flags ∧
    t = { s with flags := t.flags }) ∧
  (∀ (x : Word) (s : State), ∃ t, alu 0b001#3 x x s = .ok (0, t) ∧
    t.flags = { n := false, z := true, c := true, v := false }) ∧
  (∀ (x : Word) (s : State), ∃ t, alu 0b001#3 x 0 s = .ok (x, t) ∧ t.flags.c = true)

/-- ALU AND and OR, selectors 0b010 and 0b011 (R120, R121). -/
def Obligations.AluAndOrComputeBitwise : Prop :=
  ∀ (a b : Word) (s : State),
    (∃ r t, alu 0b010#3 a b s = .ok (r, t) ∧ AndOutcome a b r t.flags ∧ t = { s with flags := t.flags }) ∧
    (∃ r t, alu 0b011#3 a b s = .ok (r, t) ∧ OrOutcome a b r t.flags ∧ t = { s with flags := t.flags })

/-- ALU SHFT, selector 0b100 (R118 and R119 where SHIFT0_KEEPS_CARRY is false, which is the spec's rule). That an amount
of 0 keeps the carry where the parameter is true rests on X1 and log entry 8. -/
def Obligations.AluShftComputesShift : Prop :=
  ∀ (a b : Word) (s : State), ∃ r t, alu 0b100#3 a b s = .ok (r, t) ∧
    ShftOutcome s.config.shift0KeepsCarry s.flags.c a b r t.flags ∧ t = { s with flags := t.flags }

/-- Every legal operation sets N to bit 15 of the result and Z when it is 0 (R113, R114); the selectors 0b101, 0b110
and 0b111 fault with the selector and, since no state results, with no flag changed (R243). -/
def Obligations.AluSelectorsComputeOrFault : Prop :=
  ∀ (sel : BitVec 3) (a b : Word) (s : State),
    (sel.toNat ≤ 4 → ∃ r t, alu sel a b s = .ok (r, t) ∧ NegativeZero r t.flags) ∧
    (5 ≤ sel.toNat → alu sel a b s = .error (.invalidControlSignal sel))

/-- With SHIFT0_KEEPS_CARRY false (the spec's rule, X1), the result and the flags do not depend on the flags before
the operation. Rests on the spec's derived R123. -/
def Obligations.AluIgnoresEarlierFlags : Prop :=
  ∀ (sel : BitVec 3) (a b r : Word) (s t : State) (f : Flags), s.config.shift0KeepsCarry = false →
    alu sel a b s = .ok (r, t) → ∃ u, alu sel a b { s with flags := f } = .ok (r, u) ∧ u.flags = t.flags

/-- V of ADD and of SUB is set exactly when the signed result is out of range: the meaning the glossary gives
Overflow, derived from the formulas of R116 and R117. -/
def Obligations.OverflowIsSignedRangeExceeded : Prop :=
  ∀ (a b r : Word) (s t : State),
    (alu 0b000#3 a b s = .ok (r, t) →
      (t.flags.v = true ↔ a.toInt + b.toInt < -32768 ∨ 32767 < a.toInt + b.toInt)) ∧
    (alu 0b001#3 a b s = .ok (r, t) →
      (t.flags.v = true ↔ a.toInt - b.toInt < -32768 ∨ 32767 < a.toInt - b.toInt))

/-- The name-level ALU (part of R242): the five names select the five operations and any other name fails. -/
def Obligations.AluByNameFaultsOnOtherNames : Prop :=
  (∀ (name : String) (a b : Word) (s : State), name ∉ ["ADD", "SUB", "AND", "OR", "SHFT"] →
    aluByName name a b s = .error (.invalidOperation name)) ∧
  (∀ (a b : Word) (s : State),
    aluByName "ADD" a b s = alu 0b000#3 a b s ∧ aluByName "SUB" a b s = alu 0b001#3 a b s ∧
    aluByName "AND" a b s = alu 0b010#3 a b s ∧ aluByName "OR" a b s = alu 0b011#3 a b s ∧
    aluByName "SHFT" a b s = alu 0b100#3 a b s)

/-! ### Data-transfer instructions -/

/-- LOADI (R170): the low byte of the immediate, zero-extended; nothing else changes. -/
def Obligations.LoadiWritesZeroExtendedByte : Prop :=
  (∀ (rd : Reg) (k : BitVec 8),
    decodeInstr (BitVec.ofNat 16 (0x0000 + 0x100 * rd.toNat + k.toNat)) = some (.loadi rd (k.setWidth 16))) ∧
  ∀ (rd : Reg) (imm : Word) (s : State), ∃ t, exec (.loadi rd imm) s = .next t ∧
    (readReg rd t).toNat = imm.toNat % 256 ∧
    RegsKeptBut rd s t ∧ t.flags = s.flags ∧ ControlKept s t ∧ DataKept s t ∧ ContextKept s t

/-- LUI (R171): the low byte of the immediate above the old low byte of `rd`. -/
def Obligations.LuiKeepsLowByte : Prop :=
  (∀ (rd : Reg) (k : BitVec 8),
    decodeInstr (BitVec.ofNat 16 (0x1000 + 0x100 * rd.toNat + k.toNat)) = some (.lui rd (k.setWidth 16))) ∧
  ∀ (rd : Reg) (imm : Word) (s : State), ∃ t, exec (.lui rd imm) s = .next t ∧
    (readReg rd t).toNat = imm.toNat % 256 * 256 + (readReg rd s).toNat % 256 ∧
    RegsKeptBut rd s t ∧ t.flags = s.flags ∧ ControlKept s t ∧ DataKept s t ∧ ContextKept s t

/-- LOAD (R172): the word at `(x[ra] + imm) mod 2^16`, for every base and destination; outside data memory the fault,
with `x[rd]` unchanged. -/
def Obligations.LoadReadsWordOrFaults : Prop :=
  (∀ (rd ra k : BitVec 4),
    decodeInstr (BitVec.ofNat 16 (0x2000 + 0x100 * rd.toNat + 0x10 * ra.toNat + k.toNat)) =
      some (.load rd ra (k.signExtend 16))) ∧
  ∀ (rd ra : Reg) (imm : Word) (s : State),
    (((readReg ra s).toNat + imm.toNat) % 65536 < s.config.dmemSize → ∃ t, exec (.load rd ra imm) s = .next t ∧
      readReg rd t = Memory.read s.dmem (((readReg ra s).toNat + imm.toNat) % 65536) ∧
      RegsKeptBut rd s t ∧ t.flags = s.flags ∧ ControlKept s t ∧ DataKept s t ∧ ContextKept s t) ∧
    (s.config.dmemSize ≤ ((readReg ra s).toNat + imm.toNat) % 65536 →
      exec (.load rd ra imm) s =
        .fault (.raised (.outOfBounds .dmem (((readReg ra s).toNat + imm.toNat) % 65536)) { s with faulted := true }))

/-- STORE (R173): `x[ra]` at `(x[rd] + imm) mod 2^16` and at no other address; no register changes; outside data
memory the fault, with no memory word changed. -/
def Obligations.StoreWritesWordOrFaults : Prop :=
  (∀ (rd ra k : BitVec 4),
    decodeInstr (BitVec.ofNat 16 (0x3000 + 0x100 * rd.toNat + 0x10 * ra.toNat + k.toNat)) =
      some (.store rd ra (k.signExtend 16))) ∧
  ∀ (rd ra : Reg) (imm : Word) (s : State),
    (((readReg rd s).toNat + imm.toNat) % 65536 < s.config.dmemSize → ∃ t, exec (.store rd ra imm) s = .next t ∧
      Memory.read t.dmem (effectiveAddress (readReg rd s) (riOffset imm)).toNat = readReg ra s ∧
      (effectiveAddress (readReg rd s) (riOffset imm)).toNat = ((readReg rd s).toNat + imm.toNat) % 65536 ∧
      DataKeptBut (effectiveAddress (readReg rd s) (riOffset imm)).toNat s t ∧
      RegsKept s t ∧ t.flags = s.flags ∧ ControlKept s t ∧ ContextKept s t) ∧
    (s.config.dmemSize ≤ ((readReg rd s).toNat + imm.toNat) % 65536 →
      exec (.store rd ra imm) s =
        .fault (.raised (.outOfBounds .dmem (((readReg rd s).toNat + imm.toNat) % 65536)) { s with faulted := true }))

/-- LOADI then LUI of the same register builds any 16-bit constant (the pseudo-instruction LI of R97). -/
def Obligations.LoadiThenLuiBuildsConstant : Prop :=
  ∀ (rd : Reg) (k : Word) (s : State), ∃ t u,
    exec (.loadi rd (BitVec.ofNat 16 (k.toNat % 256))) s = .next t ∧
    exec (.lui rd (BitVec.ofNat 16 (k.toNat / 256))) t = .next u ∧
    readReg rd u = k ∧ RegsKeptBut rd s u ∧ u.flags = s.flags

/-! ### ALU instructions -/

/-- ADDI (R190): the sum of `x[ra]` and the sign-extended immediate, flags by ADD. -/
def Obligations.AddiAddsImmediate : Prop :=
  (∀ (rd ra k : BitVec 4),
    decodeInstr (BitVec.ofNat 16 (0x4000 + 0x100 * rd.toNat + 0x10 * ra.toNat + k.toNat)) =
      some (.addi rd ra (k.signExtend 16))) ∧
  ∀ (rd ra : Reg) (imm : Word) (s : State), ∃ t, exec (.addi rd ra imm) s = .next t ∧
    AddOutcome (readReg ra s) imm (readReg rd t) t.flags ∧
    RegsKeptBut rd s t ∧ ControlKept s t ∧ DataKept s t ∧ ContextKept s t

/-- ADD (R191). -/
def Obligations.AddAddsRegisters : Prop :=
  (∀ rd ra rb : Reg,
    decodeInstr (BitVec.ofNat 16 (0x5000 + 0x100 * rd.toNat + 0x10 * ra.toNat + rb.toNat)) = some (.add rd ra rb)) ∧
  ∀ (rd ra rb : Reg) (s : State), ∃ t, exec (.add rd ra rb) s = .next t ∧
    AddOutcome (readReg ra s) (readReg rb s) (readReg rd t) t.flags ∧
    RegsKeptBut rd s t ∧ ControlKept s t ∧ DataKept s t ∧ ContextKept s t

/-- SUB (R192): `x[ra]` is the minuend. -/
def Obligations.SubSubtractsRegisters : Prop :=
  (∀ rd ra rb : Reg,
    decodeInstr (BitVec.ofNat 16 (0x6000 + 0x100 * rd.toNat + 0x10 * ra.toNat + rb.toNat)) = some (.sub rd ra rb)) ∧
  ∀ (rd ra rb : Reg) (s : State), ∃ t, exec (.sub rd ra rb) s = .next t ∧
    SubOutcome (readReg ra s) (readReg rb s) (readReg rd t) t.flags ∧
    RegsKeptBut rd s t ∧ ControlKept s t ∧ DataKept s t ∧ ContextKept s t

/-- AND (R193). -/
def Obligations.AndMasksRegisters : Prop :=
  (∀ rd ra rb : Reg,
    decodeInstr (BitVec.ofNat 16 (0x7000 + 0x100 * rd.toNat + 0x10 * ra.toNat + rb.toNat)) = some (.and rd ra rb)) ∧
  ∀ (rd ra rb : Reg) (s : State), ∃ t, exec (.and rd ra rb) s = .next t ∧
    AndOutcome (readReg ra s) (readReg rb s) (readReg rd t) t.flags ∧
    RegsKeptBut rd s t ∧ ControlKept s t ∧ DataKept s t ∧ ContextKept s t

/-- OR (R194). -/
def Obligations.OrJoinsRegisters : Prop :=
  (∀ rd ra rb : Reg,
    decodeInstr (BitVec.ofNat 16 (0x8000 + 0x100 * rd.toNat + 0x10 * ra.toNat + rb.toNat)) = some (.or rd ra rb)) ∧
  ∀ (rd ra rb : Reg) (s : State), ∃ t, exec (.or rd ra rb) s = .next t ∧
    OrOutcome (readReg ra s) (readReg rb s) (readReg rd t) t.flags ∧
    RegsKeptBut rd s t ∧ ControlKept s t ∧ DataKept s t ∧ ContextKept s t

/-- SHFT: amount and direction from `x[rb]` (R195 where SHIFT0_KEEPS_CARRY is false). That an amount of 0 keeps the carry
where the parameter is true rests on X1 and log entry 8. -/
def Obligations.ShftShiftsRegister : Prop :=
  (∀ rd ra rb : Reg,
    decodeInstr (BitVec.ofNat 16 (0x9000 + 0x100 * rd.toNat + 0x10 * ra.toNat + rb.toNat)) = some (.shft rd ra rb)) ∧
  ∀ (rd ra rb : Reg) (s : State), ∃ t, exec (.shft rd ra rb) s = .next t ∧
    ShftOutcome s.config.shift0KeepsCarry s.flags.c (readReg ra s) (readReg rb s) (readReg rd t) t.flags ∧
    RegsKeptBut rd s t ∧ ControlKept s t ∧ DataKept s t ∧ ContextKept s t

/-! ### Control-transfer instructions -/

/-- BEQ (R212): taken exactly when Z is 1. -/
def Obligations.BeqBranchesOnZero : Prop :=
  (∀ (x : BitVec 4) (k : BitVec 8),
    decodeInstr (BitVec.ofNat 16 (0xA000 + 0x100 * x.toNat + k.toNat)) = some (.beq (k.setWidth 16))) ∧
  ∀ (imm : Word) (s : State), ∃ t, exec (.beq imm) s = .next t ∧
    (s.flags.z = true → GoesTo s.pc imm t.pc) ∧ (s.flags.z = false → t.pc = s.pc) ∧
    t.sp = s.sp ∧ t.halted = s.halted ∧ t.flags = s.flags ∧ RegsKept s t ∧ DataKept s t ∧ ContextKept s t

/-- BNE (R213): taken exactly when Z is 0. -/
def Obligations.BneBranchesOnNotZero : Prop :=
  (∀ (x : BitVec 4) (k : BitVec 8),
    decodeInstr (BitVec.ofNat 16 (0xB000 + 0x100 * x.toNat + k.toNat)) = some (.bne (k.setWidth 16))) ∧
  ∀ (imm : Word) (s : State), ∃ t, exec (.bne imm) s = .next t ∧
    (s.flags.z = false → GoesTo s.pc imm t.pc) ∧ (s.flags.z = true → t.pc = s.pc) ∧
    t.sp = s.sp ∧ t.halted = s.halted ∧ t.flags = s.flags ∧ RegsKept s t ∧ DataKept s t ∧ ContextKept s t

/-- B (R214). -/
def Obligations.BranchAlwaysGoesToTarget : Prop :=
  (∀ (x : BitVec 4) (k : BitVec 8),
    decodeInstr (BitVec.ofNat 16 (0xC000 + 0x100 * x.toNat + k.toNat)) = some (.b (k.setWidth 16))) ∧
  ∀ (imm : Word) (s : State), ∃ t, exec (.b imm) s = .next t ∧ GoesTo s.pc imm t.pc ∧
    t.sp = s.sp ∧ t.halted = s.halted ∧ t.flags = s.flags ∧ RegsKept s t ∧ DataKept s t ∧ ContextKept s t

/-- CALL (R216): the return address at the decremented SP and at no other address, then the jump; with that slot
outside data memory the fault, the decrement done and the memory and the PC as they were. -/
def Obligations.CallPushesReturnAddressOrFaults : Prop :=
  (∀ (x : BitVec 4) (k : BitVec 8),
    decodeInstr (BitVec.ofNat 16 (0xD000 + 0x100 * x.toNat + k.toNat)) = some (.call (k.setWidth 16))) ∧
  ∀ (imm : Word) (s : State),
    ((decrementSp s).sp.toNat < s.config.dmemSize → ∃ t, exec (.call imm) s = .next t ∧
      (t.sp.toNat : Int) = ((s.sp.toNat : Int) - 1) % 65536 ∧ t.sp = (decrementSp s).sp ∧
      Memory.read t.dmem (decrementSp s).sp.toNat = s.pc ∧ DataKeptBut (decrementSp s).sp.toNat s t ∧
      GoesTo s.pc imm t.pc ∧ t.halted = s.halted ∧ t.flags = s.flags ∧ RegsKept s t ∧ ContextKept s t) ∧
    (s.config.dmemSize ≤ (decrementSp s).sp.toNat →
      exec (.call imm) s =
        .fault (.raised (.outOfBounds .dmem (decrementSp s).sp.toNat) { s with sp := s.sp - 1, faulted := true }))

/-- RET (R217): the word at SP into the PC, then SP + 1; with SP outside data memory the fault, neither changed. -/
def Obligations.RetPopsReturnAddressOrFaults : Prop :=
  (∀ x : BitVec 12, decodeInstr (BitVec.ofNat 16 (0xE000 + x.toNat)) = some .ret) ∧
  ∀ s : State,
    (s.sp.toNat < s.config.dmemSize → ∃ t, exec .ret s = .next t ∧
      t.pc = Memory.read s.dmem s.sp.toNat ∧ t.sp.toNat = (s.sp.toNat + 1) % 65536 ∧
      t.halted = s.halted ∧ t.flags = s.flags ∧ RegsKept s t ∧ DataKept s t ∧ ContextKept s t) ∧
    (s.config.dmemSize ≤ s.sp.toNat →
      exec .ret s = .fault (.raised (.outOfBounds .dmem s.sp.toNat) { s with faulted := true }))

/-- HALT (R218): halted, with the PC where fetch left it; the step that executes HALT reports Advanced, and every later
step reports NotAdvanced and changes nothing. -/
def Obligations.HaltEntersHaltedForGood : Prop :=
  (∀ x : BitVec 12, decodeInstr (BitVec.ofNat 16 (0xF000 + x.toNat)) = some .halt) ∧
  (∀ s : State, ∃ t, exec .halt s = .next t ∧ t.halted = true ∧ t.pc = s.pc ∧ t.sp = s.sp ∧ t.flags = s.flags ∧
    RegsKept s t ∧ DataKept s t ∧ ContextKept s t ∧
    (s.faulted = false → step t = .next t ∧ stepReport t = .notAdvanced)) ∧
  ∀ s : State, Running s → s.pc.toNat < s.config.imemSize →
    decodeInstr (Memory.read s.imem s.pc.toNat) = some .halt →
    ∃ t, stepReport s = .advanced t ∧ t.halted = true ∧ t.pc.toNat = (s.pc.toNat + 1) % 65536

/-- CALL, any callee that leaves SP, the stack slot and the parameters as CALL left them, then RET: the PC is the
return address and SP is as before CALL. Rests on the spec's derived R220. -/
def Obligations.CallThenRetReturns : Prop :=
  ∀ (imm : Word) (s t u : State), exec (.call imm) s = .next t →
    u.sp = t.sp → u.config = t.config → Memory.read u.dmem u.sp.toNat = Memory.read t.dmem t.sp.toNat →
    ∃ v, exec .ret u = .next v ∧ v.pc = s.pc ∧ v.sp = s.sp

/-- A branch whose target lies outside instruction memory completes, and the next step faults on the fetch with only
the faulted mark set. Rests on the spec's derived R219. -/
def Obligations.OutsideTargetFaultsAtNextFetch : Prop :=
  ∀ (s : State) (imm target : Word), Running s → s.pc.toNat < s.config.imemSize →
    decodeInstr (Memory.read s.imem s.pc.toNat) = some (.b imm) → GoesTo (s.pc + 1) imm target →
    s.config.imemSize ≤ target.toNat →
    ∃ t, step s = .next t ∧ t.pc = target ∧
      step t = .fault (.raised (.outOfBounds .imem target.toNat) { t with faulted := true })

/-! ### The step -/

/-- When the word at the PC decodes to `i`, a step of a running core is exec of `i` on the state with `ir`, `pc` and
`dec` written (R141, R143, R18); `i` is well formed. -/
def Obligations.StepRunsDecodedInstruction : Prop :=
  ∀ (s : State) (i : Instr), Running s → s.pc.toNat < s.config.imemSize →
    decodeInstr (Memory.read s.imem s.pc.toNat) = some i →
    ∃ d, decode (Memory.read s.imem s.pc.toNat) = some d ∧ instrOf d = i ∧ i.wellFormed = true ∧
      step s = exec i { s with ir := Memory.read s.imem s.pc.toNat, pc := s.pc + 1, dec := some d }

/-- Fetch (R143): inside instruction memory it writes `ir` and advances `pc` modulo 2^16; outside, it faults and, in a
running core, the step leaves everything but the faulted mark unchanged. -/
def Obligations.FetchAdvancesOrFaults : Prop :=
  ∀ s : State,
    (s.pc.toNat < s.config.imemSize → ∃ t, fetch s = .ok t ∧ t.ir = Memory.read s.imem s.pc.toNat ∧
      t.pc.toNat = (s.pc.toNat + 1) % 65536 ∧ t = { s with ir := t.ir, pc := t.pc }) ∧
    (s.config.imemSize ≤ s.pc.toNat → fetch s = .error (.outOfBounds .imem s.pc.toNat) ∧
      (Running s → step s = .fault (.raised (.outOfBounds .imem s.pc.toNat) { s with faulted := true })))

/-- A step of a halted core changes no state and reports NotAdvanced (R142). -/
def Obligations.HaltedStepChangesNothing : Prop :=
  ∀ s : State, s.halted = true → s.faulted = false → step s = .next s ∧ stepReport s = .notAdvanced

/-- What a step reports (R140): Advanced when it executed an instruction, NotAdvanced when the core was already
halted, or the fault. -/
def Obligations.StepReportsItsOutcome : Prop :=
  ∀ s : State,
    (∀ t, s.halted = false → step s = .next t → stepReport s = .advanced t) ∧
    (s.halted = true → s.faulted = false → stepReport s = .notAdvanced) ∧
    (∀ f, step s = .fault f → stepReport s = .stopped f)

/-- A fault leaves the core faulted, and a faulted core has no step (R246). -/
def Obligations.FaultIsTerminal : Prop :=
  ∀ s : State,
    (∀ c l, step s = .fault (.raised c l) → l.faulted = true ∧ step l = .fault .noStep) ∧
    (s.faulted = true → step s = .fault .noStep) ∧
    (∀ t, step s = .next t → t.faulted = false)

/-- A step of a running core faults exactly in the cases R245 lists, and a step is never refused. -/
def Obligations.StepFaultsExactlyOutOfBounds : Prop :=
  ∀ s : State, (∀ r, step s ≠ .refused r) ∧
    (Running s → ((∃ f, step s = .fault f) ↔
      s.config.imemSize ≤ s.pc.toNat ∨
      ∃ d, s.pc.toNat < s.config.imemSize ∧ decode (Memory.read s.imem s.pc.toNat) = some d ∧
        ((d.mnemonic = .LOAD ∧ s.config.dmemSize ≤ ((readReg d.ra s).toNat + d.imm.toNat) % 65536) ∨
         (d.mnemonic = .STORE ∧ s.config.dmemSize ≤ ((readReg d.rd s).toNat + d.imm.toNat) % 65536) ∨
         (d.mnemonic = .CALL ∧ s.config.dmemSize ≤ (s.sp - 1).toNat) ∨
         (d.mnemonic = .RET ∧ s.config.dmemSize ≤ s.sp.toNat))))

/-- The only error a step raises is OutOfBounds, of an address at or past the size of its memory: no instruction
drives a bad selector and no word decodes outside the sixteen. Rests on the spec's derived R93 and R196. -/
def Obligations.StepRaisesOnlyOutOfBounds : Prop :=
  ∀ (s l : State) (c : FaultCause), step s = .fault (.raised c l) →
    (∃ a, c = .outOfBounds .imem a ∧ s.config.imemSize ≤ a) ∨ (∃ a, c = .outOfBounds .dmem a ∧ s.config.dmemSize ≤ a)

/-- The state a fault leaves, row by row of the table of R247: fetch; then LOAD, STORE, RET; then CALL. Rests on the
spec's derived R247. -/
def Obligations.FaultLeavesEarlierWritesOnly : Prop :=
  ∀ (s l : State) (c : FaultCause), step s = .fault (.raised c l) →
    (s.config.imemSize ≤ s.pc.toNat ∧ c = .outOfBounds .imem s.pc.toNat ∧ l = { s with faulted := true }) ∨
    ∃ d, s.pc.toNat < s.config.imemSize ∧ decode (Memory.read s.imem s.pc.toNat) = some d ∧
      ((d.mnemonic ∈ [Mnemonic.LOAD, .STORE, .RET] ∧
          l = { s with ir := Memory.read s.imem s.pc.toNat, pc := s.pc + 1, dec := some d, faulted := true }) ∨
       (d.mnemonic = .CALL ∧ c = .outOfBounds .dmem (s.sp - 1).toNat ∧
          l = { s with ir := Memory.read s.imem s.pc.toNat, pc := s.pc + 1, dec := some d, sp := s.sp - 1,
                       faulted := true }))

/-! ### What the whole machine keeps -/

/-- The flags change only in a step that drives the ALU (R153). -/
def Obligations.FlagsChangeOnlyInAluSteps : Prop :=
  ∀ (s t : State) (d : Decoded), Running s → decode (Memory.read s.imem s.pc.toNat) = some d →
    step s = .next t → d.mnemonic ∉ [Mnemonic.ADDI, .ADD, .SUB, .AND, .OR, .SHFT] → t.flags = s.flags

/-- The SP changes only in a step that executes CALL, by -1, or RET, by +1 (R28, R36 in part). -/
def Obligations.StackPointerMovesOnlyInCallAndRet : Prop :=
  ∀ s t : State, step s = .next t → t.sp ≠ s.sp →
    ∃ d, decode (Memory.read s.imem s.pc.toNat) = some d ∧
      ((d.mnemonic = .CALL ∧ (t.sp.toNat : Int) = ((s.sp.toNat : Int) - 1) % 65536) ∨
       (d.mnemonic = .RET ∧ t.sp.toNat = (s.sp.toNat + 1) % 65536))

/-- A register changes only as the destination of an instruction that writes one. Rests on the spec's derived R22. -/
def Obligations.OnlyDestinationRegisterChanges : Prop :=
  ∀ (s t : State) (r : Reg), step s = .next t → readReg r t ≠ readReg r s →
    ∃ d, decode (Memory.read s.imem s.pc.toNat) = some d ∧ r = d.rd ∧
      d.mnemonic ∈ [Mnemonic.LOADI, .LUI, .LOAD, .ADDI, .ADD, .SUB, .AND, .OR, .SHFT]

/-- No step writes instruction memory, whether it completes or faults (R276, R66); the parameters stay too. -/
def Obligations.InstructionMemoryNeverWritten : Prop :=
  ∀ s : State,
    (∀ t, step s = .next t → t.imem = s.imem ∧ t.config = s.config) ∧
    (∀ c l, step s = .fault (.raised c l) → l.imem = s.imem ∧ l.config = s.config)

/-- A word of data memory changes only by STORE, at its effective address, or by CALL, at the decremented SP; and no
fault changes one (R51 in part). -/
def Obligations.DataMemoryWrittenOnlyByStoreAndCall : Prop :=
  ∀ s : State,
    (∀ (t : State) (a : Nat), step s = .next t → Memory.read t.dmem a ≠ Memory.read s.dmem a →
      ∃ d, decode (Memory.read s.imem s.pc.toNat) = some d ∧
        ((d.mnemonic = .STORE ∧ a = ((readReg d.rd s).toNat + d.imm.toNat) % 65536 ∧
            Memory.read t.dmem a = readReg d.ra s) ∨
         (d.mnemonic = .CALL ∧ a = (s.sp - 1).toNat ∧ Memory.read t.dmem a = s.pc + 1))) ∧
    (∀ c l, step s = .fault (.raised c l) → DataKept s l)

/-- HALT sets the halted flag, nothing else does, nothing clears it, and a core is built running (R34). -/
def Obligations.OnlyHaltSetsHalted : Prop :=
  (∀ s t : State, step s = .next t → s.halted = true → t.halted = true) ∧
  (∀ s t : State, step s = .next t → s.halted = false →
    (t.halted = true ↔ ∃ d, decode (Memory.read s.imem s.pc.toNat) = some d ∧ d.mnemonic = .HALT)) ∧
  (∀ (p : Params) (s : State), build p = .ok s → s.halted = false)

/-- The PC after a step, for each instruction (R26). -/
def Obligations.NextPcFollowsTable : Prop :=
  ∀ (s t : State) (d : Decoded), Running s → decode (Memory.read s.imem s.pc.toNat) = some d → step s = .next t →
    match d.mnemonic with
    | .BEQ => if s.flags.z then GoesTo (s.pc + 1) d.imm t.pc else t.pc.toNat = (s.pc.toNat + 1) % 65536
    | .BNE => if s.flags.z then t.pc.toNat = (s.pc.toNat + 1) % 65536 else GoesTo (s.pc + 1) d.imm t.pc
    | .B => GoesTo (s.pc + 1) d.imm t.pc
    | .CALL => GoesTo (s.pc + 1) d.imm t.pc
    | .RET => t.pc = Memory.read s.dmem s.sp.toNat
    | _ => t.pc.toNat = (s.pc.toNat + 1) % 65536

/-- Every step keeps the invariant: legal sizes, both memories canonical and inside their sizes, `dec` the decoding of
`ir`, halted only after HALT, not faulted. The canonical form is the model's (log entries 4 and 6). -/
def Obligations.StepKeepsTheMachineInvariant : Prop :=
  ∀ s t : State, Inv s → step s = .next t → Inv t

/-- The invariant holds after reset; the values of reset that the spec leaves to the host are those of log entries
1 to 5. -/
def Obligations.ResetMeetsTheMachineInvariant : Prop := Inv State.reset

/-- The invariant holds of every core built with legal parameters, and so of every state of its runs. -/
def Obligations.ReachableStatesMeetTheInvariant : Prop := ∀ s : State, Reachable s → Inv s

/-- The datapath with the control signals of R150 executes every decoded instruction exactly as its rule does. Rests on
the spec's derived R150, R151 and R152. -/
def Obligations.DatapathExecutesEveryInstruction : Prop :=
  ∀ (d : Decoded) (s : State), datapath (controlOf d.mnemonic) d s = exec (instrOf d) s

/-- No instruction tests N, C or V: steps from two states that differ only there have the same outcome but for N, C
and V (R211 and R32 in part). -/
def Obligations.UntestedFlagsInfluenceNothingElse : Prop :=
  ∀ (s : State) (f : Flags), f.z = s.flags.z → OutcomesAgree (step s) (step { s with flags := f })

/-! ### Building, loading and the host -/

/-- The state a built core is in (R270), for all parameters; with a program longer than instruction memory no core is
built. -/
def Obligations.BuildLeavesInitialState : Prop :=
  ∀ p : Params,
    ((p.program.getD []).length ≤ p.config.imemSize → ∃ s, build p = .ok s ∧ s.config = p.config ∧
      s.pc = 0 ∧ s.sp = p.spInit ∧ s.ir = 0 ∧ s.dec = none ∧ s.halted = false ∧ s.faulted = false ∧
      s.flags = p.flagsInit ∧ (∀ i : Reg, readReg i s = p.regInit[i.toNat]) ∧
      (∀ a, Memory.read s.dmem a = p.dmemInit.getD a 0) ∧
      (∀ a, Memory.read s.imem a = (p.program.getD []).getD a 0)) ∧
    (p.config.imemSize < (p.program.getD []).length → build p = .error (.outOfBounds .imem p.config.imemSize))

/-- State.reset is the core built from the model's choice of the host's parameters (log entries 1 to 5). -/
def Obligations.ResetIsTheChosenBuild : Prop := build Params.chosen = .ok State.reset

/-- Program load (R272): the whole of instruction memory and the PC, nothing else; a program that is too long faults,
and no core is built with it. -/
def Obligations.LoadReplacesInstructionMemory : Prop :=
  ∀ (ws : List Word) (s : State),
    (ws.length ≤ s.config.imemSize → ∃ t, loadProgram ws s = .ok t ∧
      (∀ i, Memory.read t.imem i = ws.getD i 0) ∧ t.pc = 0 ∧ t = { s with imem := t.imem, pc := t.pc }) ∧
    (s.config.imemSize < ws.length → loadProgram ws s = .error (.outOfBounds .imem s.config.imemSize) ∧
      ∀ p : Params, p.config = s.config → p.program = some ws →
        build p = .error (.outOfBounds .imem s.config.imemSize))

/-- The bounds check of R56 and the contents of R53: an access succeeds exactly inside the memory; a word read is the
word last written there, and a write leaves every other word. -/
def Obligations.DataMemoryHoldsWhatWasWritten : Prop :=
  ∀ (a v : Word) (s : State),
    (a.toNat < s.config.dmemSize → ∃ t, memWrite a v s = .ok t ∧ memRead a t = .ok v ∧
      (∀ b, b ≠ a → memRead b t = memRead b s) ∧ t = { s with dmem := t.dmem }) ∧
    (a.toNat < s.config.dmemSize → memRead a s = .ok (Memory.read s.dmem a.toNat)) ∧
    (s.config.dmemSize ≤ a.toNat → memWrite a v s = .error (.outOfBounds .dmem a.toNat) ∧
      memRead a s = .error (.outOfBounds .dmem a.toNat)) ∧
    (a.toNat < s.config.imemSize → imemRead a s = .ok (Memory.read s.imem a.toNat)) ∧
    (s.config.imemSize ≤ a.toNat → imemRead a s = .error (.outOfBounds .imem a.toNat))

/-- The combined register-file access (R148): both reads see the old contents, an omitted index reads as 0x0000, and
the write is done exactly when enabled. -/
def Obligations.RegisterFileReadsThenWrites : Prop :=
  ∀ (ia ib : Option Reg) (wd : Reg) (data : Word) (we : Bool) (s : State),
    (rfAccess ia ib wd data we s).1 =
      ((ia.map fun i => readReg i s).getD 0, (ib.map fun i => readReg i s).getD 0) ∧
    (we = true → readReg wd (rfAccess ia ib wd data we s).2 = data ∧
      RegsKeptBut wd s (rfAccess ia ib wd data we s).2) ∧
    (we = false → (rfAccess ia ib wd data we s).2 = s)

/-- The packed view of the status register (R33). -/
def Obligations.StatusPacksNZCV : Prop :=
  ∀ s : State, (observeFlags s).getLsbD 3 = s.flags.n ∧ (observeFlags s).getLsbD 2 = s.flags.z ∧
    (observeFlags s).getLsbD 1 = s.flags.c ∧ (observeFlags s).getLsbD 0 = s.flags.v

/-- A run that has ended ends the same way however many more steps are allowed, with the same step count (R157, R158
in part). -/
def Obligations.EndedRunStaysEnded : Prop :=
  ∀ (n m : Nat) (s : State), n ≤ m →
    (∀ k t, run n s = .halted k t → run m s = .halted k t) ∧ (∀ k f, run n s = .faulted k f → run m s = .faulted k f)
end

