-- ==== Sys2Proof/Laws/Memory.lean ====
section
/-! SUPPORT. The laws of one memory: read after write, the frame of a write, the canonical form and the bounds kept. -/

namespace Sys2Proof.Machine

@[simp] theorem Memory.read_nil (a : Nat) : Memory.read [] a = 0 := rfl

@[simp] theorem Memory.read_cons (k : Nat) (w : Word) (m : Memory) (a : Nat) :
    Memory.read ((k, w) :: m) a = if k = a then w else Memory.read m a := rfl

theorem Memory.read_erase (m : Memory) (a b : Nat) :
    Memory.read (Memory.erase m a) b = if b = a then 0 else Memory.read m b := by
  induction m with
  | nil => simp [Memory.erase]
  | cons c m ih =>
    obtain ⟨k, w⟩ := c
    simp only [Memory.erase, List.filter_cons] at ih ⊢
    by_cases hk : k = a
    · subst hk
      by_cases hb : b = k
      · subst hb
        simpa using ih
      · simpa [hb, Ne.symm hb] using ih
    · by_cases hb : b = a
      · subst hb
        simp [hk, ih]
      · simp [hk, ih, hb]

theorem Memory.read_insert (m : Memory) (a : Nat) (v : Word) (b : Nat)
    (hfree : ∀ c ∈ m, c.1 ≠ a) :
    Memory.read (Memory.insert m a v) b = if b = a then v else Memory.read m b := by
  induction m with
  | nil => simp [Memory.insert, eq_comm]
  | cons c m ih =>
    obtain ⟨k, w⟩ := c
    have hk : k ≠ a := hfree (k, w) (by simp)
    have ih := ih (fun c hc => hfree c (by simp [hc]))
    unfold Memory.insert
    split
    · by_cases hb : b = a
      · simp [hb]
      · simp [hb, Ne.symm hb]
    · rw [Memory.read_cons, ih]
      by_cases hb : b = a
      · simp [hb, hk]
      · simp [hb]

/-- Nothing is listed at an erased address. -/
theorem Memory.erase_free (m : Memory) (a : Nat) : ∀ c ∈ Memory.erase m a, c.1 ≠ a := by
  intro c hc
  simpa [Memory.erase] using (List.mem_filter.mp hc).2

/-- What a write does to every read. -/
theorem Memory.read_write (m : Memory) (a : Nat) (v : Word) (b : Nat) :
    Memory.read (Memory.write m a v) b = if b = a then v else Memory.read m b := by
  unfold Memory.write
  split
  · rename_i hv
    rw [Memory.read_erase, hv]
  · rw [Memory.read_insert _ _ _ _ (Memory.erase_free m a), Memory.read_erase]
    by_cases hb : b = a <;> simp [hb]

@[simp] theorem Memory.read_write_same (m : Memory) (a : Nat) (v : Word) :
    Memory.read (Memory.write m a v) a = v := by simp [Memory.read_write]

theorem Memory.read_write_ne {a b : Nat} (h : b ≠ a) (m : Memory) (v : Word) :
    Memory.read (Memory.write m a v) b = Memory.read m b := by simp [Memory.read_write, h]

@[simp] theorem Memory.gatedWrite_true (m : Memory) (a : Nat) (v : Word) :
    Memory.gatedWrite true m a v = Memory.write m a v := rfl

/-- Without write-enable nothing is written (R54). -/
@[simp] theorem Memory.gatedWrite_false (m : Memory) (a : Nat) (v : Word) : Memory.gatedWrite false m a v = m := rfl

/-! ### The canonical form -/

theorem Memory.above_iff {k : Nat} {m : Memory} : Memory.above k m = true ↔ ∀ c ∈ m, k < c.1 := by
  simp [Memory.above]

theorem Memory.wf_cons {k : Nat} {w : Word} {m : Memory} :
    Memory.wf ((k, w) :: m) = true ↔ w ≠ 0 ∧ (∀ c ∈ m, k < c.1) ∧ Memory.wf m = true := by
  simp [Memory.wf, Memory.above_iff, and_assoc]

theorem Memory.mem_insert {m : Memory} {a : Nat} {v : Word} {c : Nat × Word} (h : c ∈ Memory.insert m a v) :
    c = (a, v) ∨ c ∈ m := by
  induction m with
  | nil => simpa [Memory.insert] using h
  | cons d m ih =>
    obtain ⟨k, w⟩ := d
    unfold Memory.insert at h
    split at h
    · simpa using h
    · rcases List.mem_cons.mp h with h | h
      · exact .inr (by simp [h])
      · exact (ih h).imp_right (fun hm => by simp [hm])

theorem Memory.wf_erase {m : Memory} (h : Memory.wf m = true) (a : Nat) : Memory.wf (Memory.erase m a) = true := by
  induction m with
  | nil => rfl
  | cons c m ih =>
    obtain ⟨k, w⟩ := c
    obtain ⟨hw, hk, hm⟩ := Memory.wf_cons.mp h
    unfold Memory.erase
    rw [List.filter_cons]
    split
    · exact Memory.wf_cons.mpr ⟨hw, fun c hc => hk c (List.mem_of_mem_filter hc), ih hm⟩
    · exact ih hm

theorem Memory.wf_insert {m : Memory} {a : Nat} {v : Word} (h : Memory.wf m = true) (hv : v ≠ 0)
    (hfree : ∀ c ∈ m, c.1 ≠ a) : Memory.wf (Memory.insert m a v) = true := by
  induction m with
  | nil => exact Memory.wf_cons.mpr ⟨hv, by simp, rfl⟩
  | cons c m ih =>
    obtain ⟨k, w⟩ := c
    obtain ⟨hw, hk, hm⟩ := Memory.wf_cons.mp h
    have hka : k ≠ a := hfree (k, w) (by simp)
    unfold Memory.insert
    split
    · rename_i hlt
      refine Memory.wf_cons.mpr ⟨hv, fun c hc => ?_, h⟩
      rcases List.mem_cons.mp hc with rfl | hc
      · exact hlt
      · exact hlt.trans (hk c hc)
    · refine Memory.wf_cons.mpr ⟨hw, fun c hc => ?_, ih hm (fun c hc => hfree c (by simp [hc]))⟩
      rcases Memory.mem_insert hc with rfl | hc
      · show k < a
        omega
      · exact hk c hc

/-- A write keeps the canonical form. -/
theorem Memory.wf_write {m : Memory} (h : Memory.wf m = true) (a : Nat) (v : Word) :
    Memory.wf (Memory.write m a v) = true := by
  unfold Memory.write
  split
  · exact Memory.wf_erase h a
  · exact Memory.wf_insert (Memory.wf_erase h a) ‹_› (Memory.erase_free m a)

/-- A gated write keeps the canonical form. -/
theorem Memory.wf_gatedWrite {m : Memory} (h : Memory.wf m = true) (we : Bool) (a : Nat) (v : Word) :
    Memory.wf (Memory.gatedWrite we m a v) = true := by
  cases we
  · exact h
  · exact Memory.wf_write h a v

/-! ### The bounds -/

theorem Memory.within_iff {n : Nat} {m : Memory} : Memory.within n m = true ↔ ∀ c ∈ m, c.1 < n := by
  simp [Memory.within]

/-- A write inside the bounds keeps every listed address inside them. -/
theorem Memory.within_write {n : Nat} {m : Memory} (h : Memory.within n m = true) {a : Nat} (ha : a < n) (v : Word) :
    Memory.within n (Memory.write m a v) = true := by
  rw [Memory.within_iff] at h ⊢
  intro c hc
  unfold Memory.write at hc
  split at hc
  · exact h c (List.mem_of_mem_filter hc)
  · rcases Memory.mem_insert hc with rfl | hc
    · exact ha
    · exact h c (List.mem_of_mem_filter hc)

/-! ### A memory made of a list of words -/

theorem Memory.mem_ofWords {ws : List Word} {a : Nat} {c : Nat × Word} (h : c ∈ Memory.ofWords a ws) :
    a ≤ c.1 ∧ c.1 < a + ws.length := by
  induction ws generalizing a with
  | nil => simp [Memory.ofWords] at h
  | cons w ws ih =>
    have key : c ∈ Memory.ofWords (a + 1) ws → a ≤ c.1 ∧ c.1 < a + (w :: ws).length := by
      intro hc
      obtain ⟨h1, h2⟩ := ih hc
      simp only [List.length_cons]
      omega
    unfold Memory.ofWords at h
    split at h
    · exact key h
    · rcases List.mem_cons.mp h with rfl | hc
      · simp
      · exact key hc

/-- The memory made of a list of words is canonical. -/
theorem Memory.wf_ofWords (ws : List Word) (a : Nat) : Memory.wf (Memory.ofWords a ws) = true := by
  induction ws generalizing a with
  | nil => rfl
  | cons w ws ih =>
    unfold Memory.ofWords
    split
    · exact ih _
    · exact Memory.wf_cons.mpr ⟨‹_›, fun c hc => (Memory.mem_ofWords hc).1, ih _⟩

/-- It lies inside any bounds that hold the words. -/
theorem Memory.within_ofWords {ws : List Word} {a n : Nat} (h : a + ws.length ≤ n) :
    Memory.within n (Memory.ofWords a ws) = true := by
  rw [Memory.within_iff]
  intro c hc
  exact (Memory.mem_ofWords hc).2.trans_le h

/-- Below its first address it reads as 0x0000. -/
theorem Memory.read_ofWords_below {ws : List Word} {a b : Nat} (h : b < a) :
    Memory.read (Memory.ofWords a ws) b = 0 := by
  induction ws generalizing a with
  | nil => rfl
  | cons w ws ih =>
    unfold Memory.ofWords
    split
    · exact ih (by omega)
    · rw [Memory.read_cons, if_neg (by omega), ih (by omega)]

/-- It reads as the words from its first address on and as 0x0000 after them. -/
theorem Memory.read_ofWords (ws : List Word) (a i : Nat) :
    Memory.read (Memory.ofWords a ws) (a + i) = ws.getD i 0 := by
  induction ws generalizing a i with
  | nil => simp [Memory.ofWords]
  | cons w ws ih =>
    cases i with
    | zero =>
      unfold Memory.ofWords
      split
      · rename_i hw
        simp [hw, Memory.read_ofWords_below (Nat.lt_succ_self a)]
      · simp
    | succ i =>
      have := ih (a + 1) i
      rw [Nat.add_right_comm] at this
      unfold Memory.ofWords
      split
      · simpa [Nat.add_assoc] using this
      · rw [Memory.read_cons, if_neg (by omega)]
        simpa [Nat.add_assoc] using this

/-- Words of 0x0000 list nothing. -/
theorem Memory.ofWords_replicate_zero (n a : Nat) : Memory.ofWords a (List.replicate n 0) = [] := by
  induction n generalizing a with
  | zero => rfl
  | succ n ih =>
    rw [List.replicate_succ, Memory.ofWords, if_pos rfl, ih]

end Sys2Proof.Machine
end

