-- ==== Sys2Proof/Laws/State.lean ====
section
/-! SUPPORT. One lemma per field per update of the state, so that no later proof unfolds a record update. -/

namespace Sys2Proof.Machine

@[simp] theorem writeReg_config (i : Reg) (v : Word) (s : State) : (writeReg i v s).config = s.config := rfl
@[simp] theorem writeReg_regs (i : Reg) (v : Word) (s : State) :
    (writeReg i v s).regs = s.regs.set i.toNat v := rfl
@[simp] theorem writeReg_pc (i : Reg) (v : Word) (s : State) : (writeReg i v s).pc = s.pc := rfl
@[simp] theorem writeReg_sp (i : Reg) (v : Word) (s : State) : (writeReg i v s).sp = s.sp := rfl
@[simp] theorem writeReg_ir (i : Reg) (v : Word) (s : State) : (writeReg i v s).ir = s.ir := rfl
@[simp] theorem writeReg_dec (i : Reg) (v : Word) (s : State) : (writeReg i v s).dec = s.dec := rfl
@[simp] theorem writeReg_halted (i : Reg) (v : Word) (s : State) : (writeReg i v s).halted = s.halted := rfl
@[simp] theorem writeReg_faulted (i : Reg) (v : Word) (s : State) : (writeReg i v s).faulted = s.faulted := rfl
@[simp] theorem writeReg_flags (i : Reg) (v : Word) (s : State) : (writeReg i v s).flags = s.flags := rfl
@[simp] theorem writeReg_imem (i : Reg) (v : Word) (s : State) : (writeReg i v s).imem = s.imem := rfl
@[simp] theorem writeReg_dmem (i : Reg) (v : Word) (s : State) : (writeReg i v s).dmem = s.dmem := rfl

@[simp] theorem setPc_config (t : Word) (s : State) : (setPc t s).config = s.config := rfl
@[simp] theorem setPc_regs (t : Word) (s : State) : (setPc t s).regs = s.regs := rfl
@[simp] theorem setPc_pc (t : Word) (s : State) : (setPc t s).pc = t := rfl
@[simp] theorem setPc_sp (t : Word) (s : State) : (setPc t s).sp = s.sp := rfl
@[simp] theorem setPc_ir (t : Word) (s : State) : (setPc t s).ir = s.ir := rfl
@[simp] theorem setPc_dec (t : Word) (s : State) : (setPc t s).dec = s.dec := rfl
@[simp] theorem setPc_halted (t : Word) (s : State) : (setPc t s).halted = s.halted := rfl
@[simp] theorem setPc_faulted (t : Word) (s : State) : (setPc t s).faulted = s.faulted := rfl
@[simp] theorem setPc_flags (t : Word) (s : State) : (setPc t s).flags = s.flags := rfl
@[simp] theorem setPc_imem (t : Word) (s : State) : (setPc t s).imem = s.imem := rfl
@[simp] theorem setPc_dmem (t : Word) (s : State) : (setPc t s).dmem = s.dmem := rfl
@[simp] theorem readReg_setPc (t : Word) (i : Reg) (s : State) : readReg i (setPc t s) = readReg i s := rfl

@[simp] theorem setSp_config (t : Word) (s : State) : (setSp t s).config = s.config := rfl
@[simp] theorem setSp_regs (t : Word) (s : State) : (setSp t s).regs = s.regs := rfl
@[simp] theorem setSp_pc (t : Word) (s : State) : (setSp t s).pc = s.pc := rfl
@[simp] theorem setSp_sp (t : Word) (s : State) : (setSp t s).sp = t := rfl
@[simp] theorem setSp_ir (t : Word) (s : State) : (setSp t s).ir = s.ir := rfl
@[simp] theorem setSp_dec (t : Word) (s : State) : (setSp t s).dec = s.dec := rfl
@[simp] theorem setSp_halted (t : Word) (s : State) : (setSp t s).halted = s.halted := rfl
@[simp] theorem setSp_faulted (t : Word) (s : State) : (setSp t s).faulted = s.faulted := rfl
@[simp] theorem setSp_flags (t : Word) (s : State) : (setSp t s).flags = s.flags := rfl
@[simp] theorem setSp_imem (t : Word) (s : State) : (setSp t s).imem = s.imem := rfl
@[simp] theorem setSp_dmem (t : Word) (s : State) : (setSp t s).dmem = s.dmem := rfl
@[simp] theorem readReg_setSp (t : Word) (i : Reg) (s : State) : readReg i (setSp t s) = readReg i s := rfl

@[simp] theorem setIr_config (w : Word) (s : State) : (setIr w s).config = s.config := rfl
@[simp] theorem setIr_regs (w : Word) (s : State) : (setIr w s).regs = s.regs := rfl
@[simp] theorem setIr_pc (w : Word) (s : State) : (setIr w s).pc = s.pc := rfl
@[simp] theorem setIr_sp (w : Word) (s : State) : (setIr w s).sp = s.sp := rfl
@[simp] theorem setIr_ir (w : Word) (s : State) : (setIr w s).ir = w := rfl
@[simp] theorem setIr_dec (w : Word) (s : State) : (setIr w s).dec = s.dec := rfl
@[simp] theorem setIr_halted (w : Word) (s : State) : (setIr w s).halted = s.halted := rfl
@[simp] theorem setIr_faulted (w : Word) (s : State) : (setIr w s).faulted = s.faulted := rfl
@[simp] theorem setIr_flags (w : Word) (s : State) : (setIr w s).flags = s.flags := rfl
@[simp] theorem setIr_imem (w : Word) (s : State) : (setIr w s).imem = s.imem := rfl
@[simp] theorem setIr_dmem (w : Word) (s : State) : (setIr w s).dmem = s.dmem := rfl
@[simp] theorem readReg_setIr (w : Word) (i : Reg) (s : State) : readReg i (setIr w s) = readReg i s := rfl

@[simp] theorem setDec_config (d : Decoded) (s : State) : (setDec d s).config = s.config := rfl
@[simp] theorem setDec_regs (d : Decoded) (s : State) : (setDec d s).regs = s.regs := rfl
@[simp] theorem setDec_pc (d : Decoded) (s : State) : (setDec d s).pc = s.pc := rfl
@[simp] theorem setDec_sp (d : Decoded) (s : State) : (setDec d s).sp = s.sp := rfl
@[simp] theorem setDec_ir (d : Decoded) (s : State) : (setDec d s).ir = s.ir := rfl
@[simp] theorem setDec_dec (d : Decoded) (s : State) : (setDec d s).dec = some d := rfl
@[simp] theorem setDec_halted (d : Decoded) (s : State) : (setDec d s).halted = s.halted := rfl
@[simp] theorem setDec_faulted (d : Decoded) (s : State) : (setDec d s).faulted = s.faulted := rfl
@[simp] theorem setDec_flags (d : Decoded) (s : State) : (setDec d s).flags = s.flags := rfl
@[simp] theorem setDec_imem (d : Decoded) (s : State) : (setDec d s).imem = s.imem := rfl
@[simp] theorem setDec_dmem (d : Decoded) (s : State) : (setDec d s).dmem = s.dmem := rfl
@[simp] theorem readReg_setDec (d : Decoded) (i : Reg) (s : State) : readReg i (setDec d s) = readReg i s := rfl

@[simp] theorem setHalted_config (s : State) : (setHalted s).config = s.config := rfl
@[simp] theorem setHalted_regs (s : State) : (setHalted s).regs = s.regs := rfl
@[simp] theorem setHalted_pc (s : State) : (setHalted s).pc = s.pc := rfl
@[simp] theorem setHalted_sp (s : State) : (setHalted s).sp = s.sp := rfl
@[simp] theorem setHalted_ir (s : State) : (setHalted s).ir = s.ir := rfl
@[simp] theorem setHalted_dec (s : State) : (setHalted s).dec = s.dec := rfl
@[simp] theorem setHalted_halted (s : State) : (setHalted s).halted = true := rfl
@[simp] theorem setHalted_faulted (s : State) : (setHalted s).faulted = s.faulted := rfl
@[simp] theorem setHalted_flags (s : State) : (setHalted s).flags = s.flags := rfl
@[simp] theorem setHalted_imem (s : State) : (setHalted s).imem = s.imem := rfl
@[simp] theorem setHalted_dmem (s : State) : (setHalted s).dmem = s.dmem := rfl
@[simp] theorem readReg_setHalted (i : Reg) (s : State) : readReg i (setHalted s) = readReg i s := rfl

@[simp] theorem setFaulted_config (s : State) : (setFaulted s).config = s.config := rfl
@[simp] theorem setFaulted_regs (s : State) : (setFaulted s).regs = s.regs := rfl
@[simp] theorem setFaulted_pc (s : State) : (setFaulted s).pc = s.pc := rfl
@[simp] theorem setFaulted_sp (s : State) : (setFaulted s).sp = s.sp := rfl
@[simp] theorem setFaulted_ir (s : State) : (setFaulted s).ir = s.ir := rfl
@[simp] theorem setFaulted_dec (s : State) : (setFaulted s).dec = s.dec := rfl
@[simp] theorem setFaulted_halted (s : State) : (setFaulted s).halted = s.halted := rfl
@[simp] theorem setFaulted_faulted (s : State) : (setFaulted s).faulted = true := rfl
@[simp] theorem setFaulted_flags (s : State) : (setFaulted s).flags = s.flags := rfl
@[simp] theorem setFaulted_imem (s : State) : (setFaulted s).imem = s.imem := rfl
@[simp] theorem setFaulted_dmem (s : State) : (setFaulted s).dmem = s.dmem := rfl
@[simp] theorem readReg_setFaulted (i : Reg) (s : State) : readReg i (setFaulted s) = readReg i s := rfl

@[simp] theorem setFlags_config (f : Flags) (s : State) : (setFlags f s).config = s.config := rfl
@[simp] theorem setFlags_regs (f : Flags) (s : State) : (setFlags f s).regs = s.regs := rfl
@[simp] theorem setFlags_pc (f : Flags) (s : State) : (setFlags f s).pc = s.pc := rfl
@[simp] theorem setFlags_sp (f : Flags) (s : State) : (setFlags f s).sp = s.sp := rfl
@[simp] theorem setFlags_ir (f : Flags) (s : State) : (setFlags f s).ir = s.ir := rfl
@[simp] theorem setFlags_dec (f : Flags) (s : State) : (setFlags f s).dec = s.dec := rfl
@[simp] theorem setFlags_halted (f : Flags) (s : State) : (setFlags f s).halted = s.halted := rfl
@[simp] theorem setFlags_faulted (f : Flags) (s : State) : (setFlags f s).faulted = s.faulted := rfl
@[simp] theorem setFlags_flags (f : Flags) (s : State) : (setFlags f s).flags = f := rfl
@[simp] theorem setFlags_imem (f : Flags) (s : State) : (setFlags f s).imem = s.imem := rfl
@[simp] theorem setFlags_dmem (f : Flags) (s : State) : (setFlags f s).dmem = s.dmem := rfl
@[simp] theorem readReg_setFlags (f : Flags) (i : Reg) (s : State) : readReg i (setFlags f s) = readReg i s := rfl

@[simp] theorem setImem_config (m : Memory) (s : State) : (setImem m s).config = s.config := rfl
@[simp] theorem setImem_regs (m : Memory) (s : State) : (setImem m s).regs = s.regs := rfl
@[simp] theorem setImem_pc (m : Memory) (s : State) : (setImem m s).pc = s.pc := rfl
@[simp] theorem setImem_sp (m : Memory) (s : State) : (setImem m s).sp = s.sp := rfl
@[simp] theorem setImem_ir (m : Memory) (s : State) : (setImem m s).ir = s.ir := rfl
@[simp] theorem setImem_dec (m : Memory) (s : State) : (setImem m s).dec = s.dec := rfl
@[simp] theorem setImem_halted (m : Memory) (s : State) : (setImem m s).halted = s.halted := rfl
@[simp] theorem setImem_faulted (m : Memory) (s : State) : (setImem m s).faulted = s.faulted := rfl
@[simp] theorem setImem_flags (m : Memory) (s : State) : (setImem m s).flags = s.flags := rfl
@[simp] theorem setImem_imem (m : Memory) (s : State) : (setImem m s).imem = m := rfl
@[simp] theorem setImem_dmem (m : Memory) (s : State) : (setImem m s).dmem = s.dmem := rfl
@[simp] theorem readReg_setImem (m : Memory) (i : Reg) (s : State) : readReg i (setImem m s) = readReg i s := rfl

@[simp] theorem setDmem_config (m : Memory) (s : State) : (setDmem m s).config = s.config := rfl
@[simp] theorem setDmem_regs (m : Memory) (s : State) : (setDmem m s).regs = s.regs := rfl
@[simp] theorem setDmem_pc (m : Memory) (s : State) : (setDmem m s).pc = s.pc := rfl
@[simp] theorem setDmem_sp (m : Memory) (s : State) : (setDmem m s).sp = s.sp := rfl
@[simp] theorem setDmem_ir (m : Memory) (s : State) : (setDmem m s).ir = s.ir := rfl
@[simp] theorem setDmem_dec (m : Memory) (s : State) : (setDmem m s).dec = s.dec := rfl
@[simp] theorem setDmem_halted (m : Memory) (s : State) : (setDmem m s).halted = s.halted := rfl
@[simp] theorem setDmem_faulted (m : Memory) (s : State) : (setDmem m s).faulted = s.faulted := rfl
@[simp] theorem setDmem_flags (m : Memory) (s : State) : (setDmem m s).flags = s.flags := rfl
@[simp] theorem setDmem_imem (m : Memory) (s : State) : (setDmem m s).imem = s.imem := rfl
@[simp] theorem setDmem_dmem (m : Memory) (s : State) : (setDmem m s).dmem = m := rfl
@[simp] theorem readReg_setDmem (m : Memory) (i : Reg) (s : State) : readReg i (setDmem m s) = readReg i s := rfl

@[simp] theorem decrementSp_config (s : State) : (decrementSp s).config = s.config := rfl
@[simp] theorem decrementSp_regs (s : State) : (decrementSp s).regs = s.regs := rfl
@[simp] theorem decrementSp_pc (s : State) : (decrementSp s).pc = s.pc := rfl
@[simp] theorem decrementSp_sp (s : State) : (decrementSp s).sp = s.sp - 1 := rfl
@[simp] theorem decrementSp_ir (s : State) : (decrementSp s).ir = s.ir := rfl
@[simp] theorem decrementSp_dec (s : State) : (decrementSp s).dec = s.dec := rfl
@[simp] theorem decrementSp_halted (s : State) : (decrementSp s).halted = s.halted := rfl
@[simp] theorem decrementSp_faulted (s : State) : (decrementSp s).faulted = s.faulted := rfl
@[simp] theorem decrementSp_flags (s : State) : (decrementSp s).flags = s.flags := rfl
@[simp] theorem decrementSp_imem (s : State) : (decrementSp s).imem = s.imem := rfl
@[simp] theorem decrementSp_dmem (s : State) : (decrementSp s).dmem = s.dmem := rfl
@[simp] theorem readReg_decrementSp (i : Reg) (s : State) : readReg i (decrementSp s) = readReg i s := rfl

@[simp] theorem incrementSp_config (s : State) : (incrementSp s).config = s.config := rfl
@[simp] theorem incrementSp_regs (s : State) : (incrementSp s).regs = s.regs := rfl
@[simp] theorem incrementSp_pc (s : State) : (incrementSp s).pc = s.pc := rfl
@[simp] theorem incrementSp_sp (s : State) : (incrementSp s).sp = s.sp + 1 := rfl
@[simp] theorem incrementSp_ir (s : State) : (incrementSp s).ir = s.ir := rfl
@[simp] theorem incrementSp_dec (s : State) : (incrementSp s).dec = s.dec := rfl
@[simp] theorem incrementSp_halted (s : State) : (incrementSp s).halted = s.halted := rfl
@[simp] theorem incrementSp_faulted (s : State) : (incrementSp s).faulted = s.faulted := rfl
@[simp] theorem incrementSp_flags (s : State) : (incrementSp s).flags = s.flags := rfl
@[simp] theorem incrementSp_imem (s : State) : (incrementSp s).imem = s.imem := rfl
@[simp] theorem incrementSp_dmem (s : State) : (incrementSp s).dmem = s.dmem := rfl
@[simp] theorem readReg_incrementSp (i : Reg) (s : State) : readReg i (incrementSp s) = readReg i s := rfl

/-- A register write is seen at its own index. -/
@[simp] theorem readReg_writeReg_same (i : Reg) (v : Word) (s : State) : readReg i (writeReg i v s) = v := by
  simp [readReg, writeReg]

/-- A register write leaves every other register alone. -/
theorem readReg_writeReg_ne {i j : Reg} (h : j ≠ i) (v : Word) (s : State) :
    readReg j (writeReg i v s) = readReg j s := by
  have hne : i.toNat ≠ j.toNat := fun e => h (BitVec.eq_of_toNat_eq e.symm)
  simp [readReg, writeReg, Vector.getElem_set_ne _ _ hne]

/-- A state is its fields. -/
theorem State.ext_fields {s t : State} (hc : s.config = t.config) (hr : s.regs = t.regs) (hp : s.pc = t.pc)
    (hs : s.sp = t.sp) (hi : s.ir = t.ir) (hd : s.dec = t.dec) (hh : s.halted = t.halted)
    (hf : s.faulted = t.faulted) (hg : s.flags = t.flags) (hm : s.imem = t.imem) (hn : s.dmem = t.dmem) : s = t := by
  cases s; cases t; simp_all

end Sys2Proof.Machine
end

