-- ==== Sys2Proof/Laws/Building.lean ====
section
/-! SUPPORT. What building the core and loading its program answer, said once. -/

namespace Sys2Proof.Machine

@[simp] theorem construct_config (p : Params) : (construct p).config = p.config := rfl
@[simp] theorem construct_regs (p : Params) : (construct p).regs = p.regInit := rfl
@[simp] theorem construct_pc (p : Params) : (construct p).pc = 0 := rfl
@[simp] theorem construct_sp (p : Params) : (construct p).sp = p.spInit := rfl
@[simp] theorem construct_ir (p : Params) : (construct p).ir = 0 := rfl
@[simp] theorem construct_dec (p : Params) : (construct p).dec = none := rfl
@[simp] theorem construct_halted (p : Params) : (construct p).halted = false := rfl
@[simp] theorem construct_faulted (p : Params) : (construct p).faulted = false := rfl
@[simp] theorem construct_flags (p : Params) : (construct p).flags = p.flagsInit := rfl
@[simp] theorem construct_imem (p : Params) : (construct p).imem = [] := rfl
@[simp] theorem construct_dmem (p : Params) : (construct p).dmem = Memory.ofWords 0 p.dmemInit := rfl

/-- A program that fits is loaded. -/
theorem loadProgram_in {ws : List Word} {s : State} (h : ws.length ≤ s.config.imemSize) :
    loadProgram ws s = .ok (setPc 0 (setImem (Memory.ofWords 0 ws) s)) := by
  simp [loadProgram, h]

/-- A program that does not fit faults. -/
theorem loadProgram_out {ws : List Word} {s : State} (h : ¬ws.length ≤ s.config.imemSize) :
    loadProgram ws s = .error (.outOfBounds .imem s.config.imemSize) := by
  simp [loadProgram, h]

/-- No program and the empty program build the same core. -/
theorem build_eq_load (p : Params) : build p = loadProgram (p.program.getD []) (construct p) := by
  unfold build
  cases p.program with
  | none =>
    rw [Option.getD_none, loadProgram_in (Nat.zero_le _)]
    rfl
  | some ws => rfl

/-- The memory of a list of words from address 0 reads as the list, and as 0x0000 after it. -/
theorem Memory.read_ofWords_zero (ws : List Word) (a : Nat) : Memory.read (Memory.ofWords 0 ws) a = ws.getD a 0 := by
  simpa using Memory.read_ofWords ws 0 a

end Sys2Proof.Machine
end

