-- ==== Sys2Proof/Laws/Decoding.lean ====
section
/-! SUPPORT. The decoder: total, its mnemonic follows the opcode, its bit fields read what the encoder writes. -/

namespace Sys2Proof

/-- Every opcode is assigned (R82, R93). -/
theorem mnemonicOf_opcodeOf (m : Mnemonic) : mnemonicOf (opcodeOf m) = some m := by cases m <;> rfl

/-- The opcode map has no gap: an opcode's mnemonic has that opcode. -/
theorem mnemonicOf_total (op : BitVec 4) : ∃ m, mnemonicOf op = some m ∧ opcodeOf m = op := by
  have h : ∀ op : BitVec 4, ((mnemonicOf op).map opcodeOf) = some op := by decide
  have := h op
  cases hm : mnemonicOf op with
  | none => simp [hm] at this
  | some m => exact ⟨m, rfl, by simpa [hm] using this⟩

/-- Every word decodes, to the mnemonic its opcode names (R81, R93). -/
theorem decode_total (w : Word) : ∃ m, decode w = some (decodeAs m w) ∧ opcodeOf m = opcodeField w := by
  obtain ⟨m, hm, ho⟩ := mnemonicOf_total (opcodeField w)
  exact ⟨m, by simp [decode, hm], ho⟩

@[simp] theorem decodeAs_mnemonic (m : Mnemonic) (w : Word) : (decodeAs m w).mnemonic = m := by cases m <;> rfl

/-- The mnemonic of the instruction executed is the decoded one. -/
@[simp] theorem mnemonicOfInstr_instrOf (d : Decoded) : mnemonicOfInstr (instrOf d) = d.mnemonic := by
  obtain ⟨m, rd, ra, rb, imm⟩ := d
  cases m <;> rfl

/-! ### The fields of an encoded word -/

theorem opcodeField_encodeNibbles (op rd ra low : BitVec 4) : opcodeField (encodeNibbles op rd ra low) = op := by
  ext i hi
  interval_cases i <;> simp [opcodeField, encodeNibbles]

theorem rdField_encodeNibbles (op rd ra low : BitVec 4) : rdField (encodeNibbles op rd ra low) = rd := by
  ext i hi
  interval_cases i <;> simp [rdField, encodeNibbles]

theorem raField_encodeNibbles (op rd ra low : BitVec 4) : raField (encodeNibbles op rd ra low) = ra := by
  ext i hi
  interval_cases i <;> simp [raField, encodeNibbles]

theorem rbField_encodeNibbles (op rd ra low : BitVec 4) : rbField (encodeNibbles op rd ra low) = low := by
  ext i hi
  interval_cases i <;> simp [rbField, encodeNibbles]

theorem imm4Field_encodeNibbles (op rd ra low : BitVec 4) :
    imm4Field (encodeNibbles op rd ra low) = low.signExtend 16 :=
  congrArg (BitVec.signExtend 16) (rbField_encodeNibbles op rd ra low)

theorem opcodeField_encodeByte (op rd : BitVec 4) (imm : Word) : opcodeField (encodeByte op rd imm) = op := by
  ext i hi
  interval_cases i <;> simp [opcodeField, encodeByte]

theorem rdField_encodeByte (op rd : BitVec 4) (imm : Word) : rdField (encodeByte op rd imm) = rd := by
  ext i hi
  interval_cases i <;> simp [rdField, encodeByte]

theorem imm8Field_encodeByte (op rd : BitVec 4) (imm : Word) :
    imm8Field (encodeByte op rd imm) = (imm.setWidth 8).setWidth 16 := by
  ext i hi
  interval_cases i <;> simp [imm8Field, encodeByte]

/-! ### A word put together again from its fields -/

theorem encodeNibbles_of_fields (w : Word) :
    encodeNibbles (opcodeField w) (rdField w) (raField w) (rbField w) = w := by
  ext i hi
  interval_cases i <;> simp [opcodeField, rdField, raField, rbField, encodeNibbles]

theorem encodeByte_of_fields (w : Word) : encodeByte (opcodeField w) (rdField w) (imm8Field w) = w := by
  ext i hi
  interval_cases i <;> simp [opcodeField, rdField, imm8Field, encodeByte]

/-- The four bits of an RI immediate come back from its sign extension. -/
theorem setWidth_imm4Field (w : Word) : (imm4Field w).setWidth 4 = rbField w := by
  ext i hi
  interval_cases i <;> simp [imm4Field, rbField, BitVec.getElem_signExtend]

/-! ### The fields in the arithmetic of the word -/

theorem opcodeField_toNat (w : Word) : (opcodeField w).toNat = w.toNat / 4096 := by
  have := w.isLt
  simp only [opcodeField, BitVec.extractLsb'_toNat, Nat.shiftRight_eq_div_pow]
  omega

theorem rdField_toNat (w : Word) : (rdField w).toNat = w.toNat / 256 % 16 := by
  simp [rdField, BitVec.extractLsb'_toNat, Nat.shiftRight_eq_div_pow]

theorem raField_toNat (w : Word) : (raField w).toNat = w.toNat / 16 % 16 := by
  simp [raField, BitVec.extractLsb'_toNat, Nat.shiftRight_eq_div_pow]

theorem rbField_toNat (w : Word) : (rbField w).toNat = w.toNat % 16 := by
  simp [rbField, BitVec.extractLsb'_toNat]

theorem imm8Field_toNat (w : Word) : (imm8Field w).toNat = w.toNat % 256 := by
  simp [imm8Field, BitVec.extractLsb'_toNat]
  omega

/-- The value of a word written as four nibbles. -/
theorem encodeNibbles_toNat (op rd ra low : BitVec 4) :
    (encodeNibbles op rd ra low).toNat = 4096 * op.toNat + 256 * rd.toNat + 16 * ra.toNat + low.toNat := by
  have h1 := opcodeField_toNat (encodeNibbles op rd ra low)
  have h2 := rdField_toNat (encodeNibbles op rd ra low)
  have h3 := raField_toNat (encodeNibbles op rd ra low)
  have h4 := rbField_toNat (encodeNibbles op rd ra low)
  rw [opcodeField_encodeNibbles] at h1
  rw [rdField_encodeNibbles] at h2
  rw [raField_encodeNibbles] at h3
  rw [rbField_encodeNibbles] at h4
  omega

/-- The value of a word written as two nibbles and a byte. -/
theorem encodeByte_toNat (op rd : BitVec 4) (imm : Word) :
    (encodeByte op rd imm).toNat = 4096 * op.toNat + 256 * rd.toNat + imm.toNat % 256 := by
  have h1 := opcodeField_toNat (encodeByte op rd imm)
  have h2 := rdField_toNat (encodeByte op rd imm)
  have h3 := imm8Field_toNat (encodeByte op rd imm)
  rw [opcodeField_encodeByte] at h1
  rw [rdField_encodeByte] at h2
  rw [imm8Field_encodeByte] at h3
  simp at h3
  omega

/-! ### Sign extension (R16) -/

/-- The signed value of a sign extension is that of the field. -/
theorem signExtend_toInt (v : Word) {bits : Nat} (h : bits ≤ 16) :
    (signExtend v bits).toInt = (v.setWidth bits).toInt := by
  simp [signExtend, BitVec.toInt_signExtend_of_le h]

/-- With all sixteen bits it is the identity (R16, R89). -/
@[simp] theorem signExtend_sixteen (v : Word) : signExtend v 16 = v := by
  simp [signExtend]

end Sys2Proof
end

