-- ==== Sys2Proof/Laws/Operations.lean ====
section
/-! SUPPORT. For each shared operation, once, everything it can answer. -/

namespace Sys2Proof.Machine

/-! ### Bounds-checked access -/

/-- When a read of data memory answers a word, and which. -/
theorem memRead_ok_iff {a v : Word} {s : State} :
    memRead a s = .ok v ↔ a.toNat < s.config.dmemSize ∧ v = Memory.read s.dmem a.toNat := by
  unfold memRead
  split <;> simp_all [eq_comm]

/-- When a read of data memory faults, and how. -/
theorem memRead_error_iff {a : Word} {s : State} {e : FaultCause} :
    memRead a s = .error e ↔ s.config.dmemSize ≤ a.toNat ∧ e = .outOfBounds .dmem a.toNat := by
  unfold memRead
  split <;> simp_all [eq_comm]

/-- When a write of data memory is done, and what it leaves. -/
theorem memWrite_ok_iff {a v : Word} {s t : State} :
    memWrite a v s = .ok t ↔
      a.toNat < s.config.dmemSize ∧ t = setDmem (Memory.write s.dmem a.toNat v) s := by
  unfold memWrite
  split <;> simp_all [eq_comm]

/-- When a write of data memory faults, and how. -/
theorem memWrite_error_iff {a v : Word} {s : State} {e : FaultCause} :
    memWrite a v s = .error e ↔ s.config.dmemSize ≤ a.toNat ∧ e = .outOfBounds .dmem a.toNat := by
  unfold memWrite
  split <;> simp_all [eq_comm]

/-- When a fetch's read answers a word, and which. -/
theorem imemRead_ok_iff {a v : Word} {s : State} :
    imemRead a s = .ok v ↔ a.toNat < s.config.imemSize ∧ v = Memory.read s.imem a.toNat := by
  unfold imemRead
  split <;> simp_all [eq_comm]

/-- When a fetch's read faults, and how. -/
theorem imemRead_error_iff {a : Word} {s : State} {e : FaultCause} :
    imemRead a s = .error e ↔ s.config.imemSize ≤ a.toNat ∧ e = .outOfBounds .imem a.toNat := by
  unfold imemRead
  split <;> simp_all [eq_comm]

/-! ### Faults -/

/-- A fault is no next state. -/
@[simp] theorem raise_ne_next (e : FaultCause) (s t : State) : raise e s ≠ .next t := by simp [raise]

/-- A fault is no refusal. -/
@[simp] theorem raise_ne_refused (e : FaultCause) (s : State) (r : Refusal) : raise e s ≠ .refused r := by
  simp [raise]

/-- The fault raised, and the state it leaves. -/
theorem raise_eq_fault_iff {e : FaultCause} {s : State} {f : Fault} :
    raise e s = .fault f ↔ f = .raised e (setFaulted s) := by simp [raise, eq_comm]

/-! ### The ALU -/

/-- The ALU on a legal selector: the result, and only the flags change. -/
theorem alu_of_operation {sel : BitVec 3} {a b r : Word} {c v : Bool} {s : State}
    (h : aluOperation s.config.shift0KeepsCarry s.flags.c sel a b = some (r, c, v)) :
    alu sel a b s = .ok (r, setFlags (flagsOf r c v) s) := by
  simp [alu, h, setFlags]

/-- The ALU's answer determines the operation it did. -/
theorem alu_ok {sel : BitVec 3} {a b r : Word} {s t : State} (h : alu sel a b s = .ok (r, t)) :
    ∃ c v, aluOperation s.config.shift0KeepsCarry s.flags.c sel a b = some (r, c, v) ∧
      t = setFlags (flagsOf r c v) s := by
  unfold alu at h
  split at h
  · cases h
  · rename_i r' c v heq
    cases h
    exact ⟨c, v, heq, rfl⟩

/-- The ALU faults only on a selector outside the five, and with that selector. -/
theorem alu_error {sel : BitVec 3} {a b : Word} {s : State} {e : FaultCause} (h : alu sel a b s = .error e) :
    aluOperation s.config.shift0KeepsCarry s.flags.c sel a b = none ∧ e = .invalidControlSignal sel := by
  unfold alu at h
  split at h
  · cases h
    exact ⟨‹_›, rfl⟩
  · cases h

theorem aluWriteBack_of_operation {sel : BitVec 3} {rd : Reg} {a b r : Word} {c v : Bool} {s : State}
    (h : aluOperation s.config.shift0KeepsCarry s.flags.c sel a b = some (r, c, v)) :
    aluWriteBack sel rd a b s = .next (writeReg rd r (setFlags (flagsOf r c v) s)) := by
  simp [aluWriteBack, alu_of_operation h]

/-! ### The meanings that touch data memory -/

/-- LOAD inside data memory. -/
theorem execLoad_in {rd ra : Reg} {imm : Word} {s : State}
    (h : (effectiveAddress (readReg ra s) (riOffset imm)).toNat < s.config.dmemSize) :
    execLoad rd ra imm s =
      .next (writeReg rd (Memory.read s.dmem (effectiveAddress (readReg ra s) (riOffset imm)).toNat) s) := by
  simp [execLoad, memRead, h]

/-- LOAD outside data memory. -/
theorem execLoad_out {rd ra : Reg} {imm : Word} {s : State}
    (h : ¬(effectiveAddress (readReg ra s) (riOffset imm)).toNat < s.config.dmemSize) :
    execLoad rd ra imm s =
      raise (.outOfBounds .dmem (effectiveAddress (readReg ra s) (riOffset imm)).toNat) s := by
  simp [execLoad, memRead, h]

/-- STORE inside data memory. -/
theorem execStore_in {rd ra : Reg} {imm : Word} {s : State}
    (h : (effectiveAddress (readReg rd s) (riOffset imm)).toNat < s.config.dmemSize) :
    execStore rd ra imm s =
      .next (setDmem (Memory.write s.dmem (effectiveAddress (readReg rd s) (riOffset imm)).toNat (readReg ra s)) s) := by
  simp [execStore, memWrite, h]

/-- STORE outside data memory. -/
theorem execStore_out {rd ra : Reg} {imm : Word} {s : State}
    (h : ¬(effectiveAddress (readReg rd s) (riOffset imm)).toNat < s.config.dmemSize) :
    execStore rd ra imm s =
      raise (.outOfBounds .dmem (effectiveAddress (readReg rd s) (riOffset imm)).toNat) s := by
  simp [execStore, memWrite, h]

/-- CALL with the stack slot inside data memory. -/
theorem execCall_in {imm : Word} {s : State} (h : (s.sp - 1).toNat < s.config.dmemSize) :
    execCall imm s =
      .next (setPc (branchTarget s.pc imm) (setDmem (Memory.write s.dmem (s.sp - 1).toNat s.pc) (decrementSp s))) := by
  have hw : memWrite (decrementSp s).sp (decrementSp s).pc (decrementSp s) =
      .ok (setDmem (Memory.write s.dmem (s.sp - 1).toNat s.pc) (decrementSp s)) := memWrite_ok_iff.mpr ⟨h, rfl⟩
  simp only [execCall, hw]
  rfl

/-- CALL with the stack slot outside data memory. -/
theorem execCall_out {imm : Word} {s : State} (h : ¬(s.sp - 1).toNat < s.config.dmemSize) :
    execCall imm s = raise (.outOfBounds .dmem (s.sp - 1).toNat) (decrementSp s) := by
  have hw : memWrite (decrementSp s).sp (decrementSp s).pc (decrementSp s) =
      .error (.outOfBounds .dmem (s.sp - 1).toNat) := memWrite_error_iff.mpr ⟨Nat.not_lt.mp h, rfl⟩
  simp only [execCall, hw]

/-- RET with the stack slot inside data memory. -/
theorem execRet_in {s : State} (h : s.sp.toNat < s.config.dmemSize) :
    execRet s = .next (incrementSp (setPc (Memory.read s.dmem s.sp.toNat) s)) := by
  simp [execRet, memRead, h]

/-- RET with the stack slot outside data memory. -/
theorem execRet_out {s : State} (h : ¬s.sp.toNat < s.config.dmemSize) :
    execRet s = raise (.outOfBounds .dmem s.sp.toNat) s := by
  simp [execRet, memRead, h]

/-! ### The meanings that drive the ALU: each answers a next state -/

theorem execAddi_eq (rd ra : Reg) (imm : Word) (s : State) :
    execAddi rd ra imm s =
      .next (writeReg rd (readReg ra s + riOffset imm)
        (setFlags (flagsOf (readReg ra s + riOffset imm) (addCarry (readReg ra s) (riOffset imm))
          (addOverflow (readReg ra s) (riOffset imm) (readReg ra s + riOffset imm))) s)) :=
  aluWriteBack_of_operation rfl

theorem execAdd_eq (rd ra rb : Reg) (s : State) :
    execAdd rd ra rb s =
      .next (writeReg rd (readReg ra s + readReg rb s)
        (setFlags (flagsOf (readReg ra s + readReg rb s) (addCarry (readReg ra s) (readReg rb s))
          (addOverflow (readReg ra s) (readReg rb s) (readReg ra s + readReg rb s))) s)) :=
  aluWriteBack_of_operation rfl

theorem execSub_eq (rd ra rb : Reg) (s : State) :
    execSub rd ra rb s =
      .next (writeReg rd (readReg ra s - readReg rb s)
        (setFlags (flagsOf (readReg ra s - readReg rb s) (subCarry (readReg ra s) (readReg rb s))
          (subOverflow (readReg ra s) (readReg rb s) (readReg ra s - readReg rb s))) s)) :=
  aluWriteBack_of_operation rfl

theorem execAnd_eq (rd ra rb : Reg) (s : State) :
    execAnd rd ra rb s =
      .next (writeReg rd (readReg ra s &&& readReg rb s)
        (setFlags (flagsOf (readReg ra s &&& readReg rb s) false false) s)) :=
  aluWriteBack_of_operation rfl

theorem execOr_eq (rd ra rb : Reg) (s : State) :
    execOr rd ra rb s =
      .next (writeReg rd (readReg ra s ||| readReg rb s)
        (setFlags (flagsOf (readReg ra s ||| readReg rb s) false false) s)) :=
  aluWriteBack_of_operation rfl

theorem execShft_eq (rd ra rb : Reg) (s : State) :
    execShft rd ra rb s =
      .next (writeReg rd (shiftResult (readReg ra s) (readReg rb s))
        (setFlags (flagsOf (shiftResult (readReg ra s) (readReg rb s))
          (shiftCarry s.config.shift0KeepsCarry s.flags.c (readReg ra s) (readReg rb s)) false) s)) :=
  aluWriteBack_of_operation rfl

end Sys2Proof.Machine
end

