-- ==== Sys2Proof/Laws/PerInstr.lean ====
section
/-! SUPPORT. Facts about every instruction as syntax, one lemma per constructor. -/

namespace Sys2Proof.Laws.EncodedOpcode

/-- The opcode nibble of spec/opcode_table.json's "match" column. -/
def tableOpcode : Mnemonic → BitVec 4
  | .LOADI => 0#4
  | .LUI => 1#4
  | .LOAD => 2#4
  | .STORE => 3#4
  | .ADDI => 4#4
  | .ADD => 5#4
  | .SUB => 6#4
  | .AND => 7#4
  | .OR => 8#4
  | .SHFT => 9#4
  | .BEQ => 10#4
  | .BNE => 11#4
  | .B => 12#4
  | .CALL => 13#4
  | .RET => 14#4
  | .HALT => 15#4

/-- The encoded word matches the instruction's row: its bits 15:12 are those of the row's match value. -/
def Statement (i : Instr) : Prop := opcodeField (encode i) = tableOpcode (mnemonicOfInstr i)

theorem loadi (rd : Reg) (imm : Word) : Statement (.loadi rd imm) := opcodeField_encodeByte _ _ _

theorem lui (rd : Reg) (imm : Word) : Statement (.lui rd imm) := opcodeField_encodeByte _ _ _

theorem load (rd ra : Reg) (imm : Word) : Statement (.load rd ra imm) := opcodeField_encodeNibbles _ _ _ _

theorem store (rd ra : Reg) (imm : Word) : Statement (.store rd ra imm) := opcodeField_encodeNibbles _ _ _ _

theorem addi (rd ra : Reg) (imm : Word) : Statement (.addi rd ra imm) := opcodeField_encodeNibbles _ _ _ _

theorem add (rd ra rb : Reg) : Statement (.add rd ra rb) := opcodeField_encodeNibbles _ _ _ _

theorem sub (rd ra rb : Reg) : Statement (.sub rd ra rb) := opcodeField_encodeNibbles _ _ _ _

theorem and (rd ra rb : Reg) : Statement (.and rd ra rb) := opcodeField_encodeNibbles _ _ _ _

theorem or (rd ra rb : Reg) : Statement (.or rd ra rb) := opcodeField_encodeNibbles _ _ _ _

theorem shft (rd ra rb : Reg) : Statement (.shft rd ra rb) := opcodeField_encodeNibbles _ _ _ _

theorem beq (imm : Word) : Statement (.beq imm) := opcodeField_encodeByte _ _ _

theorem bne (imm : Word) : Statement (.bne imm) := opcodeField_encodeByte _ _ _

theorem b (imm : Word) : Statement (.b imm) := opcodeField_encodeByte _ _ _

theorem call (imm : Word) : Statement (.call imm) := opcodeField_encodeByte _ _ _

theorem ret : Statement (.ret) := opcodeField_encodeNibbles _ _ _ _

theorem halt : Statement (.halt) := opcodeField_encodeNibbles _ _ _ _

end Sys2Proof.Laws.EncodedOpcode
end

