-- ==== Sys2Proof/Laws/Stepping.lean ====
section
/-! SUPPORT. What a step can do, said once: fetch, decode, and the shape of every next state and every fault. -/

namespace Sys2Proof.Machine

/-- The word the next fetch reads. -/
def fetchedWord (s : State) : Word := Memory.read s.imem s.pc.toNat

/-- The state in which execute begins (R18): `ir`, `pc` and `dec` written. -/
def atExecute (s : State) (d : Decoded) : State := setDec d (setPc (s.pc + 1) (setIr (fetchedWord s) s))

/-- Fetch inside instruction memory (R143). -/
theorem fetch_in {s : State} (h : s.pc.toNat < s.config.imemSize) :
    fetch s = .ok (setPc (s.pc + 1) (setIr (fetchedWord s) s)) := by
  simp [fetch, imemRead, h, fetchedWord, nextSequential]

/-- Fetch outside instruction memory (R143). -/
theorem fetch_out {s : State} (h : ¬s.pc.toNat < s.config.imemSize) :
    fetch s = .error (.outOfBounds .imem s.pc.toNat) := by
  simp [fetch, imemRead, h]

/-- A cycle inside instruction memory executes the decoded instruction. -/
theorem cycle_in {s : State} {d : Decoded} (h : s.pc.toNat < s.config.imemSize) (hd : decode (fetchedWord s) = some d) :
    cycle s = exec (instrOf d) (atExecute s d) := by
  simp [cycle, fetch_in h, decodePhase, hd, atExecute]

/-- A cycle outside instruction memory faults with nothing changed but the mark. -/
theorem cycle_out {s : State} (h : ¬s.pc.toNat < s.config.imemSize) :
    cycle s = raise (.outOfBounds .imem s.pc.toNat) s := by
  simp [cycle, fetch_out h]

/-- A step of a running core is a cycle. -/
theorem step_running {s : State} (h : Running s) : step s = cycle s := by
  simp [step, h.1, h.2]

/-- A step of a halted core that is not faulted changes nothing (R142). -/
theorem step_halted {s : State} (hh : s.halted = true) (hf : s.faulted = false) : step s = .next s := by
  simp [step, hh, hf]

/-- A faulted core has no step (R246). -/
theorem step_faulted {s : State} (hf : s.faulted = true) : step s = .fault .noStep := by
  simp [step, hf]

/-- What a step that answers a next state did: nothing, on a halted core; or it executed the fetched instruction. -/
theorem step_next_cases {s t : State} (h : step s = .next t) :
    (s.halted = true ∧ s.faulted = false ∧ t = s) ∨
      (Running s ∧ s.pc.toNat < s.config.imemSize ∧
        ∃ d, decode (fetchedWord s) = some d ∧ exec (instrOf d) (atExecute s d) = .next t) := by
  cases hf : s.faulted with
  | true => simp [step_faulted hf] at h
  | false =>
    cases hh : s.halted with
    | true =>
      rw [step_halted hh hf] at h
      cases h
      exact .inl ⟨rfl, rfl, rfl⟩
    | false =>
      have hr : Running s := ⟨hh, hf⟩
      rw [step_running hr] at h
      by_cases hp : s.pc.toNat < s.config.imemSize
      · obtain ⟨m, hm, -⟩ := decode_total (fetchedWord s)
        rw [cycle_in hp hm] at h
        exact .inr ⟨hr, hp, _, hm, h⟩
      · rw [cycle_out hp] at h
        exact absurd h (raise_ne_next _ _ _)

/-- What a step that faults did: no step on a faulted core; a fetch out of bounds; or the executed instruction
faulted. -/
theorem step_fault_cases {s : State} {f : Fault} (h : step s = .fault f) :
    (s.faulted = true ∧ f = .noStep) ∨
      (Running s ∧ ¬s.pc.toNat < s.config.imemSize ∧ f = .raised (.outOfBounds .imem s.pc.toNat) (setFaulted s)) ∨
      (Running s ∧ s.pc.toNat < s.config.imemSize ∧
        ∃ d, decode (fetchedWord s) = some d ∧ exec (instrOf d) (atExecute s d) = .fault f) := by
  cases hf : s.faulted with
  | true =>
    rw [step_faulted hf] at h
    cases h
    exact .inl ⟨rfl, rfl⟩
  | false =>
    cases hh : s.halted with
    | true => simp [step_halted hh hf] at h
    | false =>
      have hr : Running s := ⟨hh, hf⟩
      rw [step_running hr] at h
      by_cases hp : s.pc.toNat < s.config.imemSize
      · obtain ⟨m, hm, -⟩ := decode_total (fetchedWord s)
        rw [cycle_in hp hm] at h
        exact .inr (.inr ⟨hr, hp, _, hm, h⟩)
      · rw [cycle_out hp] at h
        exact .inr (.inl ⟨hr, hp, raise_eq_fault_iff.mp h⟩)

/-- What execute did to the state when it answers a next state, by the mnemonic executed. -/
theorem exec_next_cases {d : Decoded} {s t : State} (h : exec (instrOf d) s = .next t) :
    (d.mnemonic ∈ [Mnemonic.LOADI, .LUI, .LOAD] ∧ ∃ v, t = writeReg d.rd v s) ∨
      (d.mnemonic ∈ [Mnemonic.ADDI, .ADD, .SUB, .AND, .OR, .SHFT] ∧ ∃ v f, t = writeReg d.rd v (setFlags f s)) ∨
      (d.mnemonic = .STORE ∧ (effectiveAddress (readReg d.rd s) (riOffset d.imm)).toNat < s.config.dmemSize ∧
        t = setDmem (Memory.write s.dmem (effectiveAddress (readReg d.rd s) (riOffset d.imm)).toNat
          (readReg d.ra s)) s) ∨
      (d.mnemonic = .BEQ ∧ t = if s.flags.z then setPc (branchTarget s.pc d.imm) s else s) ∨
      (d.mnemonic = .BNE ∧ t = if s.flags.z then s else setPc (branchTarget s.pc d.imm) s) ∨
      (d.mnemonic = .B ∧ t = setPc (branchTarget s.pc d.imm) s) ∨
      (d.mnemonic = .CALL ∧ (s.sp - 1).toNat < s.config.dmemSize ∧
        t = setPc (branchTarget s.pc d.imm) (setDmem (Memory.write s.dmem (s.sp - 1).toNat s.pc) (decrementSp s))) ∨
      (d.mnemonic = .RET ∧ s.sp.toNat < s.config.dmemSize ∧
        t = incrementSp (setPc (Memory.read s.dmem s.sp.toNat) s)) ∨
      (d.mnemonic = .HALT ∧ t = setHalted s) := by
  obtain ⟨m, rd, ra, rb, imm⟩ := d
  cases m <;>
    simp only [instrOf, exec, execAddi_eq, execAdd_eq, execSub_eq, execAnd_eq, execOr_eq, execShft_eq] at h <;> simp
  case LOADI | LUI => cases h; exact ⟨_, rfl⟩
  case ADDI | ADD | SUB | AND | OR | SHFT => cases h; exact ⟨_, _, rfl⟩
  case BEQ | BNE | B | HALT => cases h; rfl
  case LOAD =>
    by_cases hb : (effectiveAddress (readReg ra s) (riOffset imm)).toNat < s.config.dmemSize
    · rw [execLoad_in hb] at h
      cases h
      exact ⟨_, rfl⟩
    · rw [execLoad_out hb] at h
      exact absurd h (raise_ne_next _ _ _)
  case STORE =>
    by_cases hb : (effectiveAddress (readReg rd s) (riOffset imm)).toNat < s.config.dmemSize
    · rw [execStore_in hb] at h
      cases h
      exact ⟨hb, rfl⟩
    · rw [execStore_out hb] at h
      exact absurd h (raise_ne_next _ _ _)
  case CALL =>
    by_cases hb : (s.sp - 1).toNat < s.config.dmemSize
    · rw [execCall_in hb] at h
      cases h
      exact ⟨hb, rfl⟩
    · rw [execCall_out hb] at h
      exact absurd h (raise_ne_next _ _ _)
  case RET =>
    by_cases hb : s.sp.toNat < s.config.dmemSize
    · rw [execRet_in hb] at h
      cases h
      exact ⟨hb, rfl⟩
    · rw [execRet_out hb] at h
      exact absurd h (raise_ne_next _ _ _)

/-- Which instructions fault in execute, with what, and the state they leave (R247). -/
theorem exec_fault_cases {i : Instr} {s : State} {f : Fault} (h : exec i s = .fault f) :
    (∃ rd ra imm, i = .load rd ra imm ∧
        ¬(effectiveAddress (readReg ra s) (riOffset imm)).toNat < s.config.dmemSize ∧
        f = .raised (.outOfBounds .dmem (effectiveAddress (readReg ra s) (riOffset imm)).toNat) (setFaulted s)) ∨
      (∃ rd ra imm, i = .store rd ra imm ∧
        ¬(effectiveAddress (readReg rd s) (riOffset imm)).toNat < s.config.dmemSize ∧
        f = .raised (.outOfBounds .dmem (effectiveAddress (readReg rd s) (riOffset imm)).toNat) (setFaulted s)) ∨
      (∃ imm, i = .call imm ∧ ¬(s.sp - 1).toNat < s.config.dmemSize ∧
        f = .raised (.outOfBounds .dmem (s.sp - 1).toNat) (setFaulted (decrementSp s))) ∨
      (i = .ret ∧ ¬s.sp.toNat < s.config.dmemSize ∧
        f = .raised (.outOfBounds .dmem s.sp.toNat) (setFaulted s)) := by
  cases i with
  | loadi rd imm => cases h
  | lui rd imm => cases h
  | load rd ra imm =>
    by_cases hb : (effectiveAddress (readReg ra s) (riOffset imm)).toNat < s.config.dmemSize
    · rw [exec, execLoad_in hb] at h; cases h
    · rw [exec, execLoad_out hb] at h; exact .inl ⟨_, _, _, rfl, hb, raise_eq_fault_iff.mp h⟩
  | store rd ra imm =>
    by_cases hb : (effectiveAddress (readReg rd s) (riOffset imm)).toNat < s.config.dmemSize
    · rw [exec, execStore_in hb] at h; cases h
    · rw [exec, execStore_out hb] at h; exact .inr (.inl ⟨_, _, _, rfl, hb, raise_eq_fault_iff.mp h⟩)
  | addi rd ra imm => rw [exec, execAddi_eq] at h; cases h
  | add rd ra rb => rw [exec, execAdd_eq] at h; cases h
  | sub rd ra rb => rw [exec, execSub_eq] at h; cases h
  | and rd ra rb => rw [exec, execAnd_eq] at h; cases h
  | or rd ra rb => rw [exec, execOr_eq] at h; cases h
  | shft rd ra rb => rw [exec, execShft_eq] at h; cases h
  | beq imm => cases h
  | bne imm => cases h
  | b imm => cases h
  | call imm =>
    by_cases hb : (s.sp - 1).toNat < s.config.dmemSize
    · rw [exec, execCall_in hb] at h; cases h
    · rw [exec, execCall_out hb] at h; exact .inr (.inr (.inl ⟨_, rfl, hb, raise_eq_fault_iff.mp h⟩))
  | ret =>
    by_cases hb : s.sp.toNat < s.config.dmemSize
    · rw [exec, execRet_in hb] at h; cases h
    · rw [exec, execRet_out hb] at h; exact .inr (.inr (.inr ⟨rfl, hb, raise_eq_fault_iff.mp h⟩))
  | halt => cases h

/-! ### Runs -/

/-- A run from a halted state has ended there, however many steps are allowed (R158). -/
theorem runFrom_halted {s : State} (hh : s.halted = true) (hf : s.faulted = false) (n k : Nat) :
    runFrom n k s = .halted k s := by
  cases n <;> simp [runFrom, stepReport, step_halted hh hf, hh, hf]

/-- A run from a faulted state has ended there (R246, R158). -/
theorem runFrom_faulted {s : State} (hf : s.faulted = true) (n k : Nat) : runFrom n k s = .faulted k .noStep := by
  cases n <;> simp [runFrom, stepReport, step_faulted hf, hf]

/-- A running core with no step allowed has not ended its run (X11). -/
theorem runFrom_running_zero {s : State} (hr : Running s) (k : Nat) : runFrom 0 k s = .didNotEnd := by
  simp [runFrom, hr.1, hr.2]

end Sys2Proof.Machine
end

