-- ==== Sys2Proof/Tests/Slice0.lean ====
section
/-! SUPPORT. Tests with values of 95_test_vectors.md, and for every statement with hypotheses a state that meets them. -/

namespace Sys2Proof.Tests

open Sys2Proof.Machine

/-! ### Helpers -/

/-- The common start state of 95_test_vectors.md section 3: both memories of 256 words, `SP_INIT = 0x0100`, the rest
zero. -/
def base : State :=
  { State.reset with config := { imemSize := 256, dmemSize := 256, shift0KeepsCarry := false }, sp := 0x0100#16 }

/-- The outcome is a next state with the property. -/
def nextHas (o : Host.Outcome State Fault Refusal) (p : State → Bool) : Bool :=
  match o with
  | .next t => p t
  | _ => false

/-- The outcome is the fault, and the state it leaves has the property. -/
def faultHas (o : Host.Outcome State Fault Refusal) (c : FaultCause) (p : State → Bool) : Bool :=
  match o with
  | .fault (.raised e t) => e == c && p t
  | _ => false

/-- One step with the given word where it is fetched. -/
def stepOn (w : Nat) (s : State) : Host.Outcome State Fault Refusal := step (s.withFetchWord 16 w)

/-- The flags as N Z C V. -/
def nzcv (s : State) : BitVec 4 := observeFlags s

/-! ### Well-formedness: each check refuses a term -/

theorem test_wellFormed_refuses_wide_imm8 : (Instr.loadi 0 0x0100#16).wellFormed = false := by decide
theorem test_wellFormed_refuses_wide_branch_offset : (Instr.beq 0xFFFF#16).wellFormed = false := by decide
theorem test_wellFormed_refuses_unextended_imm4 : (Instr.load 1 2 0x0008#16).wellFormed = false := by decide
theorem test_wellFormed_accepts_extended_imm4 : (Instr.addi 1 0 0xFFF8#16).wellFormed = true := by decide

/-! ### Decoding: one word of every instruction, written out from R95 and R83 to R87 -/

-- 0000 dddd iiii iiii
theorem test_decode_loadi : decodeInstr 0b0000010011111111#16 = some (.loadi 4 0x00FF#16) := by decide
-- 0001 dddd iiii iiii
theorem test_decode_lui : decodeInstr 0b0001001011111111#16 = some (.lui 2 0x00FF#16) := by decide
-- 0010 dddd aaaa iiii
theorem test_decode_load : decodeInstr 0b0010000100101111#16 = some (.load 1 2 0xFFFF#16) := by decide
-- 0011 dddd aaaa iiii: d the base, a the data
theorem test_decode_store : decodeInstr 0b0011001000010011#16 = some (.store 2 1 0x0003#16) := by decide
-- 0100 dddd aaaa iiii
theorem test_decode_addi : decodeInstr 0b0100000110000111#16 = some (.addi 1 8 0x0007#16) := by decide
-- 0101 dddd aaaa bbbb
theorem test_decode_add : decodeInstr 0b0101001000000001#16 = some (.add 2 0 1) := by decide
-- 0110 dddd aaaa bbbb
theorem test_decode_sub : decodeInstr 0b0110001000000001#16 = some (.sub 2 0 1) := by decide
-- 0111 dddd aaaa bbbb
theorem test_decode_and : decodeInstr 0b0111111111111111#16 = some (.and 15 15 15) := by decide
-- 1000 dddd aaaa bbbb
theorem test_decode_or : decodeInstr 0b1000001000000001#16 = some (.or 2 0 1) := by decide
-- 1001 dddd aaaa bbbb
theorem test_decode_shft : decodeInstr 0b1001001000000001#16 = some (.shft 2 0 1) := by decide
-- 1010 ---- iiii iiii, reserved bits 1111
theorem test_decode_beq : decodeInstr 0b1010111100000011#16 = some (.beq 0x0003#16) := by decide
-- 1011 ---- iiii iiii
theorem test_decode_bne : decodeInstr 0b1011000011111101#16 = some (.bne 0x00FD#16) := by decide
-- 1100 ---- iiii iiii
theorem test_decode_b : decodeInstr 0b1100000011111111#16 = some (.b 0x00FF#16) := by decide
-- 1101 ---- iiii iiii
theorem test_decode_call : decodeInstr 0b1101000010000000#16 = some (.call 0x0080#16) := by decide
-- 1110 ---- ---- ----, reserved bits 0001 0010 0011
theorem test_decode_ret : decodeInstr 0b1110000100100011#16 = some .ret := by decide
-- 1111 ---- ---- ----, reserved bits all 1
theorem test_decode_halt : decodeInstr 0b1111111111111111#16 = some .halt := by decide

theorem test_decodeTableWord_store : decodeTableWord 16 0x3213 = some (.store 2 1 0x0003#16) := by decide
theorem test_encode_load : encode (.load 1 2 0xFFFF#16) = 0x212F#16 := by decide
theorem test_encode_bne : encode (.bne 0x00FD#16) = 0xB0FD#16 := by decide

/-! ### The ALU (95_test_vectors.md section 2.1): result and N Z C V -/

/-- The ALU's result and flags from the base state with C set before. -/
def aluGives (sel : BitVec 3) (a b : Word) : Option (Word × BitVec 4) :=
  match alu sel a b { base with flags := { n := false, z := false, c := true, v := true } } with
  | .ok (r, t) => some (r, nzcv t)
  | .error _ => none

theorem test_alu_add : aluGives selAdd 0x8000#16 0xFFFF#16 = some (0x7FFF#16, 0b0011#4) := by decide
theorem test_alu_sub : aluGives selSub 0x7FFF#16 0x8000#16 = some (0xFFFF#16, 0b1001#4) := by decide
theorem test_alu_and : aluGives selAnd 0xF000#16 0x0FFF#16 = some (0x0000#16, 0b0100#4) := by decide
theorem test_alu_or : aluGives selOr 0x8000#16 0x0001#16 = some (0x8001#16, 0b1000#4) := by decide
theorem test_alu_shft_left : aluGives selShft 0x9009#16 0x0001#16 = some (0x2012#16, 0b0010#4) := by decide
theorem test_alu_shft_right : aluGives selShft 0x9009#16 0x8002#16 = some (0x2402#16, 0b0000#4) := by decide
theorem test_alu_shft_zero : aluGives selShft 0x1234#16 0x0010#16 = some (0x1234#16, 0b0000#4) := by decide
theorem test_alu_invalid_selector : aluGives 0b101#3 1 1 = none := by decide

/-! ### One step of each instruction (95_test_vectors.md sections 2.3 to 2.6) -/

theorem test_step_loadi : nextHas (stepOn 0x04FF (writeReg 4 0xABCD#16 base))
    (fun t => readReg 4 t == 0x00FF#16 && t.pc == 1#16 && t.ir == 0x04FF#16) = true := by decide
theorem test_step_lui : nextHas (stepOn 0x1412 (writeReg 4 0xABCD#16 base))
    (fun t => readReg 4 t == 0x12CD#16) = true := by decide
-- the base is read before the destination is written
theorem test_step_load : nextHas (stepOn 0x2227 (writeReg 2 0x0010#16 { base with dmem := [(0x17, 0x0042#16)] }))
    (fun t => readReg 2 t == 0x0042#16) = true := by decide
theorem test_step_load_fault : faultHas (stepOn 0x2128 base) (.outOfBounds .dmem 0xFFF8)
    (fun t => readReg 1 t == 0#16 && t.pc == 1#16 && t.faulted) = true := by decide
theorem test_step_store : nextHas (stepOn 0x3213 (writeReg 2 0x0010#16 (writeReg 1 0xBEEF#16 base)))
    (fun t => t.dmem == [(0x13, 0xBEEF#16)]) = true := by decide
theorem test_step_store_fault : faultHas (stepOn 0x3550 (writeReg 5 0x0100#16 base)) (.outOfBounds .dmem 0x0100)
    (fun t => t.dmem == []) = true := by decide
theorem test_step_addi : nextHas (stepOn 0x411F (writeReg 1 0x8000#16 base))
    (fun t => readReg 1 t == 0x7FFF#16 && nzcv t == 0b0011#4) = true := by decide
theorem test_step_addi_from_zero : nextHas (stepOn 0x410F base)
    (fun t => readReg 1 t == 0xFFFF#16 && nzcv t == 0b1000#4) = true := by decide
theorem test_step_add : nextHas (stepOn 0x5111 (writeReg 1 0x8000#16 base))
    (fun t => readReg 1 t == 0#16 && nzcv t == 0b0111#4) = true := by decide
theorem test_step_sub : nextHas (stepOn 0x6201 (writeReg 0 2 (writeReg 1 5 base)))
    (fun t => readReg 2 t == 0xFFFD#16 && nzcv t == 0b1000#4) = true := by decide
theorem test_step_and : nextHas (stepOn 0x7201 (writeReg 0 0x0F0F#16 (writeReg 1 0x00FF#16 base)))
    (fun t => readReg 2 t == 0x000F#16 && nzcv t == 0b0000#4) = true := by decide
theorem test_step_or : nextHas (stepOn 0x8201 (writeReg 0 0x0F00#16 (writeReg 1 0x00F0#16 base)))
    (fun t => readReg 2 t == 0x0FF0#16 && nzcv t == 0b0000#4) = true := by decide
theorem test_step_shft : nextHas (stepOn 0x9201 (writeReg 0 0x0009#16 (writeReg 1 0x8001#16 base)))
    (fun t => readReg 2 t == 0x0004#16 && nzcv t == 0b0010#4) = true := by decide
theorem test_step_shft_by_itself : nextHas (stepOn 0x9111 (writeReg 1 0x8001#16 base))
    (fun t => readReg 1 t == 0x4000#16 && nzcv t == 0b0010#4) = true := by decide

/-- The base state at an address, with Z as given. -/
def at_ (pc : Word) (z : Bool) : State :=
  { base with pc := pc, flags := { n := false, z := z, c := false, v := false } }

theorem test_step_beq_taken : nextHas (stepOn 0xA003 (at_ 5 true)) (fun t => t.pc == 9#16) = true := by decide
theorem test_step_beq_not_taken : nextHas (stepOn 0xA003 (at_ 5 false)) (fun t => t.pc == 6#16) = true := by decide
theorem test_step_bne_taken : nextHas (stepOn 0xB0FD (at_ 4 false)) (fun t => t.pc == 2#16) = true := by decide
theorem test_step_bne_not_taken : nextHas (stepOn 0xB0FD (at_ 4 true)) (fun t => t.pc == 5#16) = true := by decide
theorem test_step_b_wraps : nextHas (stepOn 0xC080 (at_ 0 true)) (fun t => t.pc == 0xFF81#16) = true := by decide
theorem test_step_call : nextHas (stepOn 0xD005 (at_ 2 true))
    (fun t => t.sp == 0x00FF#16 && t.dmem == [(0xFF, 3#16)] && t.pc == 8#16) = true := by decide
theorem test_step_call_fault : faultHas (stepOn 0xD000 { at_ 2 true with sp := 0 }) (.outOfBounds .dmem 0xFFFF)
    (fun t => t.sp == 0xFFFF#16 && t.pc == 3#16 && t.dmem == []) = true := by decide
theorem test_step_ret : nextHas (stepOn 0xE000 { at_ 8 true with sp := 0x00FF#16, dmem := [(0xFF, 3#16)] })
    (fun t => t.sp == 0x0100#16 && t.pc == 3#16) = true := by decide
theorem test_step_ret_fault : faultHas (stepOn 0xE000 (at_ 8 true)) (.outOfBounds .dmem 0x0100)
    (fun t => t.sp == 0x0100#16 && t.pc == 9#16) = true := by decide
theorem test_step_halt : nextHas (stepOn 0xF000 (at_ 3 true)) (fun t => t.halted && t.pc == 4#16) = true := by decide

theorem test_fetch_wraps :
    nextHas (step { base with pc := 0xFFFF#16, config := Config.chosen }) (fun t => t.pc == 0#16) = true := by decide
theorem test_fetch_out_of_bounds : faultHas (step (at_ 0x0100#16 true)) (.outOfBounds .imem 0x0100)
    (fun t => t.pc == 0x0100#16 && t.ir == 0#16) = true := by decide
theorem test_core_steps_from_reset :
    nextHas (Sys2Proof.core.step (State.reset.withFetchWord 16 0x5201)) (fun t => t.dec.isSome) = true := by decide

/-! ### Host ports and building -/

theorem test_write_keeps_canonical_form : Memory.write (Memory.write [] 5 7) 5 0 = [] := by decide
theorem test_load_program : (match loadProgram [0x0001#16] base with
    | .ok t => t.imem == [(0, 0x0001#16)] && t.pc == 0
    | .error _ => false) = true := by decide
theorem test_unselected_port_reads_zero : (rfAccess none (some 3) 0 0 false (writeReg 3 9 base)).1 = (0#16, 9#16) := by
  decide

theorem test_run_reports_did_not_end : run 2 ((at_ 7 true).withFetchWord 16 0xC0FF) = .didNotEnd := by decide

/-! ### Witnesses: a state and operands that meet the hypotheses of each statement that has any -/

theorem witness_DecodeOfEncodeIsTheInstruction : (Instr.load 1 2 0xFFF8#16).wellFormed = true := by decide

theorem witness_ReservedBitsAreIgnored :
    10 ≤ (10#4).toNat ∧ (13#4).toNat ≤ 13 ∧ 14 ≤ (14#4).toNat := by decide

theorem witness_SignExtendRepeatsTheTopBit : 1 ≤ 1 ∧ 1 ≤ 16 ∧ 15 < 16 ∧ 16 ≤ 16 := by decide

theorem witness_AluSelectorsComputeOrFault : (4#3).toNat ≤ 4 ∧ 5 ≤ (5#3).toNat := by decide

theorem witness_AluIgnoresEarlierFlags :
    base.config.shift0KeepsCarry = false ∧ ∃ t, alu 0b100#3 1 2 base = .ok (4#16, t) := ⟨rfl, _, rfl⟩

theorem witness_OverflowIsSignedRangeExceeded :
    (∃ t, alu 0b000#3 0x7FFF#16 1#16 base = .ok (0x8000#16, t)) ∧
      ∃ t, alu 0b001#3 0x8000#16 1#16 base = .ok (0x7FFF#16, t) := ⟨⟨_, rfl⟩, ⟨_, rfl⟩⟩

theorem witness_AluByNameFaultsOnOtherNames : "MUL" ∉ ["ADD", "SUB", "AND", "OR", "SHFT"] := by decide

/-- The last address of data memory and the first past it, for LOAD. -/
theorem witness_LoadReadsWordOrFaults :
    ((readReg 2 (writeReg 2 0x00FF#16 base)).toNat + (0#16).toNat) % 65536 < base.config.dmemSize ∧
      base.config.dmemSize ≤ ((readReg 2 (writeReg 2 0x00FF#16 base)).toNat + (1#16).toNat) % 65536 := by decide

/-- The same for STORE, through its base register. -/
theorem witness_StoreWritesWordOrFaults :
    ((readReg 5 (writeReg 5 0x0100#16 base)).toNat + (0xFFFF#16).toNat) % 65536 < base.config.dmemSize ∧
      base.config.dmemSize ≤ ((readReg 5 (writeReg 5 0x0100#16 base)).toNat + (0#16).toNat) % 65536 := by decide

theorem witness_BeqBranchesOnZero : (at_ 5 true).flags.z = true ∧ (at_ 5 false).flags.z = false := by decide

theorem witness_BneBranchesOnNotZero : (at_ 4 false).flags.z = false ∧ (at_ 4 true).flags.z = true := by decide

/-- The slot at the last address of data memory, and a wrap below address 0. -/
theorem witness_CallPushesReturnAddressOrFaults :
    (decrementSp base).sp.toNat < base.config.dmemSize ∧
      base.config.dmemSize ≤ (decrementSp { base with sp := 0 }).sp.toNat := by decide

/-- The last address of data memory and the first past it, for RET. -/
theorem witness_RetPopsReturnAddressOrFaults :
    ({ base with sp := 0x00FF#16 } : State).sp.toNat < base.config.dmemSize ∧
      base.config.dmemSize ≤ base.sp.toNat := by decide

theorem witness_HaltEntersHaltedForGood :
    Running (base.withFetchWord 16 0xF000) ∧ base.pc.toNat < base.config.imemSize ∧
      decodeInstr (Memory.read (base.withFetchWord 16 0xF000).imem 0) = some .halt := by
  unfold Running
  decide

/-- A callee that wrote a register between CALL and RET. -/
theorem witness_CallThenRetReturns : ∃ t, exec (.call 5) (at_ 3 true) = .next t ∧
    (writeReg 1 7 t).sp = t.sp ∧ (writeReg 1 7 t).config = t.config ∧
    Memory.read (writeReg 1 7 t).dmem (writeReg 1 7 t).sp.toNat = Memory.read t.dmem t.sp.toNat :=
  ⟨_, rfl, rfl, rfl, rfl⟩

/-- A state about to run `B #127` near the end of a 256-word instruction memory: the target is 256. -/
def nearEnd : State := (at_ 0x0080#16 true).withFetchWord 16 0xC07F

theorem witness_OutsideTargetFaultsAtNextFetch :
    Running nearEnd ∧ nearEnd.pc.toNat < nearEnd.config.imemSize ∧
      decodeInstr (Memory.read nearEnd.imem nearEnd.pc.toNat) = some (.b 0x007F#16) ∧
      GoesTo (nearEnd.pc + 1) 0x007F#16 0x0100#16 ∧ nearEnd.config.imemSize ≤ (0x0100#16).toNat := by
  unfold Running GoesTo
  decide

theorem witness_StepRunsDecodedInstruction :
    Running nearEnd ∧ nearEnd.pc.toNat < nearEnd.config.imemSize ∧
      decodeInstr (Memory.read nearEnd.imem nearEnd.pc.toNat) = some (.b 0x007F#16) := by
  unfold Running
  decide

theorem witness_FetchAdvancesOrFaults :
    (at_ 0x00FF#16 true).pc.toNat < base.config.imemSize ∧ base.config.imemSize ≤ (at_ 0x0100#16 true).pc.toNat ∧
      Running (at_ 0x0100#16 true) := by
  unfold Running
  decide

theorem witness_HaltedStepChangesNothing :
    (setHalted base).halted = true ∧ (setHalted base).faulted = false := ⟨rfl, rfl⟩

theorem witness_StepReportsItsOutcome :
    (base.halted = false ∧ ∃ t, step base = .next t) ∧
      ((setHalted base).halted = true ∧ (setHalted base).faulted = false) ∧
      ∃ f, step (at_ 0x0100#16 true) = .fault f := ⟨⟨rfl, _, rfl⟩, ⟨rfl, rfl⟩, _, rfl⟩

theorem witness_FaultIsTerminal :
    (∃ c l, step (at_ 0x0100#16 true) = .fault (.raised c l)) ∧ (setFaulted base).faulted = true ∧
      ∃ t, step base = .next t := ⟨⟨_, _, rfl⟩, rfl, _, rfl⟩

/-- One running state for each of the five ways to fault. -/
theorem witness_StepFaultsExactlyOutOfBounds :
    Running (at_ 0x0100#16 true) ∧ (∃ f, step (at_ 0x0100#16 true) = .fault f) ∧
      (∃ f, stepOn 0x2128 base = .fault f) ∧ (∃ f, stepOn 0x3128 base = .fault f) ∧
      (∃ f, stepOn 0xD000 { base with sp := 0 } = .fault f) ∧ ∃ f, stepOn 0xE000 base = .fault f :=
  ⟨⟨rfl, rfl⟩, ⟨_, rfl⟩, ⟨_, rfl⟩, ⟨_, rfl⟩, ⟨_, rfl⟩, _, rfl⟩

theorem witness_StepRaisesOnlyOutOfBounds : ∃ c l, stepOn 0x2128 base = .fault (.raised c l) := ⟨_, _, rfl⟩

theorem witness_FaultLeavesEarlierWritesOnly :
    (∃ c l, step (at_ 0x0100#16 true) = .fault (.raised c l)) ∧
      (∃ c l, stepOn 0xE000 base = .fault (.raised c l)) ∧
      ∃ c l, stepOn 0xD000 { base with sp := 0 } = .fault (.raised c l) := ⟨⟨_, _, rfl⟩, ⟨_, _, rfl⟩, _, _, rfl⟩

theorem witness_FlagsChangeOnlyInAluSteps :
    Running nearEnd ∧ (∃ d, decode (Memory.read nearEnd.imem nearEnd.pc.toNat) = some d ∧
      d.mnemonic ∉ [Mnemonic.ADDI, .ADD, .SUB, .AND, .OR, .SHFT]) ∧ ∃ t, step nearEnd = .next t :=
  ⟨⟨rfl, rfl⟩, ⟨_, rfl, by decide⟩, _, rfl⟩

/-- A CALL at address 2, and a RET that returns to 3. -/
def atCall : State := (at_ 2 true).withFetchWord 16 0xD005
/-- See `atCall`. -/
def atRet : State := { at_ 8 true with sp := 0x00FF#16, dmem := [(0xFF, 3#16)] }.withFetchWord 16 0xE000

theorem witness_StackPointerMovesOnlyInCallAndRet :
    (∃ t, step atCall = .next t ∧ t.sp ≠ atCall.sp) ∧ ∃ t, step atRet = .next t ∧ t.sp ≠ atRet.sp :=
  ⟨⟨_, rfl, by decide⟩, _, rfl, by decide⟩

/-- A LOADI of a non-zero byte. -/
def atLoadi : State := base.withFetchWord 16 0x0405

theorem witness_OnlyDestinationRegisterChanges :
    ∃ t, step atLoadi = .next t ∧ readReg 4 t ≠ readReg 4 atLoadi := ⟨_, rfl, by decide⟩

theorem witness_InstructionMemoryNeverWritten :
    (∃ t, step atCall = .next t) ∧ ∃ c l, stepOn 0x2128 base = .fault (.raised c l) := ⟨⟨_, rfl⟩, _, _, rfl⟩

/-- A STORE of 0xBEEF at 0x13. -/
def atStore : State := (writeReg 2 0x0010#16 (writeReg 1 0xBEEF#16 base)).withFetchWord 16 0x3213

theorem witness_DataMemoryWrittenOnlyByStoreAndCall :
    (∃ t, step atStore = .next t ∧ Memory.read t.dmem 0x13 ≠ Memory.read atStore.dmem 0x13) ∧
      (∃ t, step atCall = .next t ∧ Memory.read t.dmem 0xFF ≠ Memory.read atCall.dmem 0xFF) ∧
      ∃ c l, stepOn 0x3550 (writeReg 5 0x0100#16 base) = .fault (.raised c l) :=
  ⟨⟨_, rfl, by decide⟩, ⟨_, rfl, by decide⟩, _, _, rfl⟩

theorem witness_OnlyHaltSetsHalted :
    (∃ t, step (setHalted base) = .next t) ∧ (base.halted = false ∧ ∃ t, stepOn 0xF000 base = .next t) ∧
      ∃ s, build { Params.chosen with dmemInit := [] } = .ok s := ⟨⟨_, rfl⟩, ⟨rfl, _, rfl⟩, _, rfl⟩

theorem witness_NextPcFollowsTable :
    (Running atCall ∧ (∃ d, decode (Memory.read atCall.imem atCall.pc.toNat) = some d) ∧ ∃ t, step atCall = .next t) ∧
      ∃ t, step atRet = .next t := ⟨⟨⟨rfl, rfl⟩, ⟨_, rfl⟩, _, rfl⟩, _, rfl⟩

/-- The invariant holds of a state that a store then leaves. -/
theorem witness_StepKeepsTheMachineInvariant : Inv atStore ∧ ∃ t, step atStore = .next t ∧ t.dmem ≠ atStore.dmem :=
  ⟨by decide, _, rfl, by decide⟩

/-- One-word memories, with 7 as the one word of data memory. -/
def tinyParams : Params :=
  { Params.chosen with config := { imemSize := 1, dmemSize := 1, shift0KeepsCarry := false }, dmemInit := [7] }

/-- A core built with them, and the state its first step leaves. -/
theorem witness_ReachableStatesMeetTheInvariant : ∃ s t, Reachable s ∧ step s = .next t ∧ Reachable t :=
  have built : Reachable (construct tinyParams) := .built (p := tinyParams) (by decide) rfl
  have steps : ∃ t, step (construct tinyParams) = .next t := ⟨_, rfl⟩
  have ⟨t, ht⟩ := steps
  ⟨_, t, built, ht, .stepped built ht⟩

theorem witness_UntestedFlagsInfluenceNothingElse :
    ({ n := true, z := true, c := true, v := true } : Flags).z = (at_ 5 true).flags.z ∧
      ({ n := true, z := true, c := true, v := true } : Flags) ≠ (at_ 5 true).flags := by decide

/-- A program that just fits a one-word instruction memory, and one that does not. -/
theorem witness_BuildLeavesInitialState :
    ((some [0xF000#16]).getD []).length ≤ 1 ∧ 1 < ((some [0x0000#16, 0xF000#16]).getD []).length := by decide

theorem witness_LoadReplacesInstructionMemory :
    (List.replicate 256 (0xC000#16)).length ≤ base.config.imemSize ∧
      base.config.imemSize < (List.replicate 257 (0xC000#16)).length ∧
      ∃ p : Params, p.config = base.config ∧ p.program = some (List.replicate 257 (0xC000#16)) := by
  rw [List.length_replicate, List.length_replicate]
  exact ⟨by decide, by decide, { Params.chosen with config := base.config, program := some _ }, rfl, rfl⟩

theorem witness_DataMemoryHoldsWhatWasWritten :
    (0x00FF#16).toNat < base.config.dmemSize ∧ base.config.dmemSize ≤ (0x0100#16).toNat ∧
      (0x00FF#16).toNat < base.config.imemSize ∧ base.config.imemSize ≤ (0x0100#16).toNat := by decide

/-- An enabled write and a disabled one. -/
theorem witness_RegisterFileReadsThenWrites :
    readReg 3 (rfAccess none none 3 9 true base).2 = 9 ∧ (rfAccess none none 3 9 false base).2 = base := by decide

theorem witness_EndedRunStaysEnded :
    1 ≤ 2 ∧ (∃ k t, run 1 (base.withFetchWord 16 0xF000) = .halted k t) ∧
      ∃ k f, run 1 (at_ 0x0100#16 true) = .faulted k f := ⟨by decide, ⟨_, _, rfl⟩, _, _, rfl⟩

end Sys2Proof.Tests
end

section
/-! PROOFS. The sign-extension primitive bit by bit, what execute keeps, and the machine invariant over one step. -/

namespace Sys2Proof

/-- Below the width the field's own bit is kept. -/
theorem signExtend_getLsbD_low (v : Word) {bits i : Nat} (hi : i < 16) (h : i < bits) :
    (signExtend v bits).getLsbD i = v.getLsbD i := by
  rw [signExtend, BitVec.getLsbD_signExtend, if_pos h, BitVec.getLsbD_setWidth]
  simp only [hi, h, decide_true, Bool.true_and]

/-- From the width on every bit is the field's top bit. -/
theorem signExtend_getLsbD_high (v : Word) {bits i : Nat} (hpos : 1 ≤ bits) (hi : i < 16) (h : bits ≤ i) :
    (signExtend v bits).getLsbD i = v.getLsbD (bits - 1) := by
  have hlast : bits - 1 < bits := Nat.sub_one_lt_of_lt hpos
  rw [signExtend, BitVec.getLsbD_signExtend, if_neg (Nat.not_lt.mpr h), BitVec.msb_eq_getLsbD_last,
    BitVec.getLsbD_setWidth]
  simp only [hi, hlast, decide_true, Bool.true_and]

/-- Settles O6: a bit below the width is the field's own, a bit from the width on is its top bit. -/
theorem signExtendRepeatsTheTopBit : Obligations.SignExtendRepeatsTheTopBit := by
  intro v bits i hpos _ hi
  rcases Nat.lt_or_ge i bits with hlow | hhigh
  · rw [signExtend_getLsbD_low v hi hlow, Nat.min_eq_left (Nat.le_sub_one_of_lt hlow)]
  · rw [signExtend_getLsbD_high v hpos hi hhigh, Nat.min_eq_right ((Nat.sub_le _ _).trans hhigh)]

end Sys2Proof

namespace Sys2Proof.Machine

/-! ### The state in which execute begins -/

@[simp] theorem atExecute_config (s : State) (d : Decoded) : (atExecute s d).config = s.config := rfl
@[simp] theorem atExecute_regs (s : State) (d : Decoded) : (atExecute s d).regs = s.regs := rfl
@[simp] theorem atExecute_pc (s : State) (d : Decoded) : (atExecute s d).pc = s.pc + 1 := rfl
@[simp] theorem atExecute_sp (s : State) (d : Decoded) : (atExecute s d).sp = s.sp := rfl
@[simp] theorem atExecute_ir (s : State) (d : Decoded) : (atExecute s d).ir = fetchedWord s := rfl
@[simp] theorem atExecute_dec (s : State) (d : Decoded) : (atExecute s d).dec = some d := rfl
@[simp] theorem atExecute_halted (s : State) (d : Decoded) : (atExecute s d).halted = s.halted := rfl
@[simp] theorem atExecute_faulted (s : State) (d : Decoded) : (atExecute s d).faulted = s.faulted := rfl
@[simp] theorem atExecute_flags (s : State) (d : Decoded) : (atExecute s d).flags = s.flags := rfl
@[simp] theorem atExecute_imem (s : State) (d : Decoded) : (atExecute s d).imem = s.imem := rfl
@[simp] theorem atExecute_dmem (s : State) (d : Decoded) : (atExecute s d).dmem = s.dmem := rfl
@[simp] theorem readReg_atExecute (i : Reg) (s : State) (d : Decoded) :
    readReg i (atExecute s d) = readReg i s := rfl

/-! ### What execute keeps -/

/-- No execute phase writes the parameters, the instruction memory, `ir`, `dec` or the faulted mark. -/
theorem exec_keeps_context {d : Decoded} {s t : State} (h : exec (instrOf d) s = .next t) :
    t.config = s.config ∧ t.imem = s.imem ∧ t.ir = s.ir ∧ t.dec = s.dec ∧ t.faulted = s.faulted := by
  rcases exec_next_cases h with ⟨-, _, rfl⟩ | ⟨-, _, _, rfl⟩ | ⟨-, -, rfl⟩ | ⟨-, rfl⟩ | ⟨-, rfl⟩ | ⟨-, rfl⟩ |
    ⟨-, -, rfl⟩ | ⟨-, -, rfl⟩ | ⟨-, rfl⟩
  -- BEQ and BNE, taken or not
  case inr.inr.inr.inl | inr.inr.inr.inr.inl => split <;> simp
  all_goals simp

/-- Execute sets the halted flag for HALT and leaves it for every other mnemonic (R34). -/
theorem exec_halted {d : Decoded} {s t : State} (h : exec (instrOf d) s = .next t) :
    t.halted = (s.halted || d.mnemonic == .HALT) := by
  rcases exec_next_cases h with ⟨hm, _, rfl⟩ | ⟨hm, _, _, rfl⟩ | ⟨hm, -, rfl⟩ | ⟨hm, rfl⟩ | ⟨hm, rfl⟩ | ⟨hm, rfl⟩ |
    ⟨hm, -, rfl⟩ | ⟨hm, -, rfl⟩ | ⟨hm, rfl⟩
  -- the register writers
  case inl | inr.inl =>
    have hne : d.mnemonic ≠ .HALT := fun he => by simp [he] at hm
    simp [hne]
  -- BEQ and BNE, taken or not
  case inr.inr.inr.inl | inr.inr.inr.inr.inl => split <;> simp [hm]
  all_goals simp [hm]

/-- Execute leaves data memory as it was or does one write inside its bounds (R56). -/
theorem exec_dmem {d : Decoded} {s t : State} (h : exec (instrOf d) s = .next t) :
    t.dmem = s.dmem ∨ ∃ a v, a < s.config.dmemSize ∧ t.dmem = Memory.write s.dmem a v := by
  rcases exec_next_cases h with ⟨-, _, rfl⟩ | ⟨-, _, _, rfl⟩ | ⟨-, hb, rfl⟩ | ⟨-, rfl⟩ | ⟨-, rfl⟩ | ⟨-, rfl⟩ |
    ⟨-, hb, rfl⟩ | ⟨-, -, rfl⟩ | ⟨-, rfl⟩
  -- STORE and CALL
  case inr.inr.inl | inr.inr.inr.inr.inr.inr.inl => exact .inr ⟨_, _, hb, rfl⟩
  -- BEQ and BNE, taken or not
  case inr.inr.inr.inl | inr.inr.inr.inr.inl => left; split <;> rfl
  all_goals exact .inl rfl

/-! ### The machine invariant -/

/-- Execute keeps data memory canonical and inside its size. -/
theorem exec_keeps_dmem_canonical {d : Decoded} {s t : State} (h : exec (instrOf d) s = .next t)
    (hwf : Memory.wf s.dmem = true) (hin : Memory.within s.config.dmemSize s.dmem = true) :
    Memory.wf t.dmem = true ∧ Memory.within s.config.dmemSize t.dmem = true := by
  rcases exec_dmem h with hm | ⟨a, v, ha, hm⟩ <;> rw [hm]
  · exact ⟨hwf, hin⟩
  · exact ⟨Memory.wf_write hwf a v, Memory.within_write hin ha v⟩

/-- `dec` and `ir` agree once a decoded word stands in `ir` and its decoding in `dec`. -/
theorem decAgrees_of_decode {s : State} {d : Decoded} (hdec : s.dec = some d) (hd : decode s.ir = some d) :
    decAgrees s = true := by
  simp [decAgrees, hdec, hd]

/-- The halted flag agrees with `dec` when it is set for HALT alone. -/
theorem haltAgrees_of_halted {s : State} {d : Decoded} (hdec : s.dec = some d)
    (hh : s.halted = (d.mnemonic == .HALT)) : haltAgrees s = true := by
  simp [haltAgrees, hdec, hh]

/-- Executing the fetched instruction of a running core keeps the invariant. -/
theorem exec_atExecute_keeps_inv {s t : State} {d : Decoded} (hinv : Inv s) (hrun : Running s)
    (hd : decode (fetchedWord s) = some d) (h : exec (instrOf d) (atExecute s d) = .next t) : Inv t := by
  obtain ⟨hlegal, hiwf, hiin, hdwf, hdin, -, -, hfault⟩ := hinv
  obtain ⟨hconfig, himem, hir, hdec, hfaulted⟩ := exec_keeps_context h
  obtain ⟨hdwf', hdin'⟩ := exec_keeps_dmem_canonical h hdwf hdin
  have hhalted : t.halted = (d.mnemonic == .HALT) := by simp [exec_halted h, hrun.1]
  have hdecode : decode t.ir = some d := by rw [hir]; exact hd
  simp only [Inv, hconfig, himem, hfaulted]
  exact ⟨hlegal, hiwf, hiin, hdwf', hdin', decAgrees_of_decode hdec hdecode, haltAgrees_of_halted hdec hhalted, hfault⟩

/-- Settles O49: a step of a halted core changes nothing, and any other step that answers a next state executes the
fetched instruction. -/
theorem stepKeepsTheMachineInvariant : Obligations.StepKeepsTheMachineInvariant := by
  intro s t hinv h
  rcases step_next_cases h with ⟨-, -, rfl⟩ | ⟨hrun, -, d, hd, hexec⟩
  · exact hinv
  · exact exec_atExecute_keeps_inv hinv hrun hd hexec

end Sys2Proof.Machine
end

section
/-! PROOFS. What one step does to the SP, the registers, the halted flag and the PC, and the packed status. -/

namespace Sys2Proof.Machine

/-! ### The step of a running core -/

/-- A step of a running core that answers a next state executed the instruction its fetched word decodes to. -/
theorem exec_of_step_next {s t : State} {d : Decoded} (hrun : Running s) (hd : decode (fetchedWord s) = some d)
    (h : step s = .next t) : exec (instrOf d) (atExecute s d) = .next t := by
  rcases step_next_cases h with ⟨hh, -, -⟩ | ⟨-, -, d', hd', hexec⟩
  · simp [hrun.1] at hh
  · cases hd.symm.trans hd'
    exact hexec

/-- A halted core stays as it is in a step that answers a next state (R142). -/
theorem eq_of_step_next_halted {s t : State} (h : step s = .next t) (hh : s.halted = true) : t = s := by
  rcases step_next_cases h with ⟨-, -, ht⟩ | ⟨hrun, -⟩
  · exact ht
  · simp [hrun.1] at hh

/-! ### The SP -/

/-- Execute moves the SP down for CALL, up for RET, and otherwise not at all (R28). -/
theorem exec_sp {d : Decoded} {s t : State} (h : exec (instrOf d) s = .next t) :
    t.sp = s.sp ∨ (d.mnemonic = .CALL ∧ t.sp = s.sp - 1) ∨ (d.mnemonic = .RET ∧ t.sp = s.sp + 1) := by
  rcases exec_next_cases h with ⟨-, _, rfl⟩ | ⟨-, _, _, rfl⟩ | ⟨-, -, rfl⟩ | ⟨-, rfl⟩ | ⟨-, rfl⟩ | ⟨-, rfl⟩ |
    ⟨hm, -, rfl⟩ | ⟨hm, -, rfl⟩ | ⟨-, rfl⟩
  -- CALL, then RET
  case inr.inr.inr.inr.inr.inr.inl => exact .inr (.inl ⟨hm, rfl⟩)
  case inr.inr.inr.inr.inr.inr.inr.inl => exact .inr (.inr ⟨hm, rfl⟩)
  -- BEQ and BNE, taken or not
  case inr.inr.inr.inl | inr.inr.inr.inr.inl => left; split <;> rfl
  all_goals exact .inl rfl

/-- The value of a word one more, modulo 2^16. -/
theorem word_add_one_toNat (w : Word) : (w + 1).toNat = (w.toNat + 1) % 65536 := by
  simp [BitVec.toNat_add]

/-- The value of a word one less, modulo 2^16. -/
theorem word_sub_one_toNat (w : Word) : ((w - 1).toNat : Int) = ((w.toNat : Int) - 1) % 65536 := by
  have hlt := w.isLt
  have hone : (1 : Word).toNat = 1 := rfl
  rw [BitVec.toNat_sub, hone]
  omega

/-- Settles O43: the step executed an instruction, and only CALL and RET move the SP in execute. -/
theorem stackPointerMovesOnlyInCallAndRet : Obligations.StackPointerMovesOnlyInCallAndRet := by
  intro s t h hne
  rcases step_next_cases h with ⟨-, -, rfl⟩ | ⟨-, -, d, hd, hexec⟩
  · exact absurd rfl hne
  · refine ⟨d, hd, ?_⟩
    rcases exec_sp hexec with hsp | ⟨hm, hsp⟩ | ⟨hm, hsp⟩
    · exact absurd hsp hne
    · exact .inl ⟨hm, hsp ▸ word_sub_one_toNat s.sp⟩
    · exact .inr ⟨hm, hsp ▸ word_add_one_toNat s.sp⟩

/-! ### The registers -/

/-- Execute writes no register but `rd`, and that one only for the nine mnemonics with a register result (R22). -/
theorem exec_registers {d : Decoded} {s t : State} (h : exec (instrOf d) s = .next t) :
    RegsKept s t ∨
      (d.mnemonic ∈ [Mnemonic.LOADI, .LUI, .LOAD, .ADDI, .ADD, .SUB, .AND, .OR, .SHFT] ∧ RegsKeptBut d.rd s t) := by
  rcases exec_next_cases h with ⟨hm, v, rfl⟩ | ⟨hm, v, f, rfl⟩ | ⟨-, -, rfl⟩ | ⟨-, rfl⟩ | ⟨-, rfl⟩ | ⟨-, rfl⟩ |
    ⟨-, -, rfl⟩ | ⟨-, -, rfl⟩ | ⟨-, rfl⟩
  case inl => exact .inr ⟨List.mem_append_left _ hm, fun r hr => readReg_writeReg_ne hr v s⟩
  case inr.inl =>
    exact .inr ⟨List.mem_append_right [Mnemonic.LOADI, .LUI, .LOAD] hm, fun r hr => readReg_writeReg_ne hr v _⟩
  -- BEQ and BNE, taken or not
  case inr.inr.inr.inl | inr.inr.inr.inr.inl => left; split <;> exact fun _ => rfl
  all_goals exact .inl fun _ => rfl

/-- Settles O44: the step executed an instruction, and execute writes no register but the destination of one that has
a register result. -/
theorem onlyDestinationRegisterChanges : Obligations.OnlyDestinationRegisterChanges := by
  intro s t r h hne
  rcases step_next_cases h with ⟨-, -, rfl⟩ | ⟨-, -, d, hd, hexec⟩
  · exact absurd rfl hne
  · rcases exec_registers hexec with hkept | ⟨hm, hbut⟩
    · exact absurd (hkept r) hne
    · exact ⟨d, hd, by_contra fun hr => hne (hbut r hr), hm⟩

/-! ### The halted flag -/

/-- A core that was built is the constructed one with its program in instruction memory (R270, R272). -/
theorem eq_of_build_ok {p : Params} {s : State} (h : build p = .ok s) :
    s = setPc 0 (setImem (Memory.ofWords 0 (p.program.getD [])) (construct p)) := by
  rw [build_eq_load] at h
  by_cases hfits : (p.program.getD []).length ≤ (construct p).config.imemSize
  · rw [loadProgram_in hfits] at h
    cases h
    rfl
  · rw [loadProgram_out hfits] at h
    cases h

/-- Settles O47: a halted core's step changes nothing, a running core's step sets the flag as execute does, and a
built core has it as constructed. -/
theorem onlyHaltSetsHalted : Obligations.OnlyHaltSetsHalted := by
  refine ⟨fun s t h hh => ?_, fun s t h hh => ?_, fun p s h => ?_⟩
  · rw [eq_of_step_next_halted h hh, hh]
  · rcases step_next_cases h with ⟨hh', -, -⟩ | ⟨-, -, d, hd, hexec⟩
    · simp [hh] at hh'
    · have hhalted : t.halted = (d.mnemonic == .HALT) := by simp [exec_halted hexec, hh]
      have hfetched : decode (Memory.read s.imem s.pc.toNat) = some d := hd
      simp [hhalted, hfetched]
  · rw [eq_of_build_ok h]
    rfl

/-! ### The PC -/

/-- An instruction with a register result leaves the PC to fetch (R150, R152). -/
theorem controlOf_nextPc_of_mem :
    ∀ m ∈ [Mnemonic.LOADI, .LUI, .LOAD, .ADDI, .ADD, .SUB, .AND, .OR, .SHFT], (controlOf m).nextPc = .seq := by
  decide

/-- Execute leaves in the PC what the PC multiplexer of R152 selects, with the word at the SP as its memory input. -/
theorem exec_pc {d : Decoded} {s t : State} (h : exec (instrOf d) s = .next t) :
    t.pc = datapathPc (controlOf d.mnemonic) d (Memory.read s.dmem s.sp.toNat) s := by
  rcases exec_next_cases h with ⟨hm, _, rfl⟩ | ⟨hm, _, _, rfl⟩ | ⟨hm, -, rfl⟩ | ⟨hm, rfl⟩ | ⟨hm, rfl⟩ | ⟨hm, rfl⟩ |
    ⟨hm, -, rfl⟩ | ⟨hm, -, rfl⟩ | ⟨hm, rfl⟩
  case inl => simp [datapathPc, controlOf_nextPc_of_mem _ (List.mem_append_left _ hm)]
  case inr.inl => simp [datapathPc, controlOf_nextPc_of_mem _ (List.mem_append_right [Mnemonic.LOADI, .LUI, .LOAD] hm)]
  -- BEQ and BNE, taken or not
  case inr.inr.inr.inl | inr.inr.inr.inr.inl => split <;> simp [datapathPc, controlOf, *]
  all_goals simp [datapathPc, controlOf, hm]

/-- The target of a branch or call is the PC moved by the signed low byte of the immediate (R210). -/
theorem goesTo_branchTarget (pc imm : Word) : GoesTo pc imm (branchTarget pc imm) := by
  have hoffset : (signExtend imm 8).toInt = (imm.setWidth 8).toInt := signExtend_toInt imm (by decide)
  rw [GoesTo, branchTarget, ← hoffset, BitVec.toInt_eq_toNat_cond, BitVec.toNat_add]
  split <;> omega

/-- Settles O48: the PC multiplexer's row for each mnemonic, at the PC that fetch has advanced. -/
theorem nextPcFollowsTable : Obligations.NextPcFollowsTable := by
  intro s t d hrun hd h
  have hpc := exec_pc (exec_of_step_next hrun hd h)
  have hseq := word_add_one_toNat s.pc
  have hbranch := goesTo_branchTarget (s.pc + 1) d.imm
  cases hm : d.mnemonic <;>
    simp only [hm, datapathPc, controlOf, atExecute_pc, atExecute_flags, atExecute_dmem, atExecute_sp] at hpc ⊢
  -- taken or not
  case BEQ | BNE =>
    by_cases hz : s.flags.z = true <;> simp only [hz, reduceIte] at hpc ⊢ <;> rw [hpc] <;> assumption
  case B | CALL => rw [hpc]; exact hbranch
  case RET => exact hpc
  all_goals rw [hpc]; exact hseq

/-! ### The packed status -/

/-- The packed status is N, Z, C and V from bit 3 down to bit 0 (R33). -/
theorem packStatus_getLsbD (f : Flags) :
    (packStatus f).getLsbD 3 = f.n ∧ (packStatus f).getLsbD 2 = f.z ∧
      (packStatus f).getLsbD 1 = f.c ∧ (packStatus f).getLsbD 0 = f.v := by
  -- the packed bits as bits of the four one-bit words, before `simp` turns them into `getElem`
  simp only [packStatus, BitVec.getLsbD_append, BitVec.getLsbD_ofBool]
  simp

/-- Settles O59: the observer is the packed view, whose bits are the flags. -/
theorem statusPacksNZCV : Obligations.StatusPacksNZCV := fun s => packStatus_getLsbD s.flags

end Sys2Proof.Machine
end

section
/-! PROOFS. Bounds-checked access to the two memories, and which words of data memory a step changes. -/

namespace Sys2Proof.Machine

/-! ### Bounds-checked access -/

/-- A read of data memory after a write that was done: the value at the written address, the word from before at
every other (R56). -/
theorem memRead_after_memWrite {a v : Word} {s t : State} (h : memWrite a v s = .ok t) (b : Word) :
    memRead b t = if b = a then .ok v else memRead b s := by
  obtain ⟨ha, rfl⟩ := memWrite_ok_iff.mp h
  by_cases hb : b = a
  · rw [if_pos hb, hb]
    exact memRead_ok_iff.mpr ⟨ha, (Memory.read_write_same ..).symm⟩
  · have hne : b.toNat ≠ a.toNat := fun he => hb (BitVec.eq_of_toNat_eq he)
    simp [memRead, hb, Memory.read_write_ne hne]

/-- Settles O57: the answers of the three accesses on each side of the bound, and read after write. -/
theorem dataMemoryHoldsWhatWasWritten : Obligations.DataMemoryHoldsWhatWasWritten := by
  intro a v s
  refine ⟨fun ha => ?_, fun ha => memRead_ok_iff.mpr ⟨ha, rfl⟩,
    fun ha => ⟨memWrite_error_iff.mpr ⟨ha, rfl⟩, memRead_error_iff.mpr ⟨ha, rfl⟩⟩,
    fun ha => imemRead_ok_iff.mpr ⟨ha, rfl⟩, fun ha => imemRead_error_iff.mpr ⟨ha, rfl⟩⟩
  have hwrite : memWrite a v s = .ok (setDmem (Memory.write s.dmem a.toNat v) s) := memWrite_ok_iff.mpr ⟨ha, rfl⟩
  have hread := memRead_after_memWrite hwrite
  exact ⟨_, hwrite, (hread a).trans (if_pos rfl), fun b hb => (hread b).trans (if_neg hb), rfl⟩

/-! ### The data words a step changes -/

/-- Execute leaves data memory as it was but for the one word STORE or CALL writes (R54). -/
theorem exec_dmem_cases {d : Decoded} {s t : State} (h : exec (instrOf d) s = .next t) :
    t.dmem = s.dmem ∨
      (d.mnemonic = .STORE ∧ t.dmem = Memory.write s.dmem
        (effectiveAddress (readReg d.rd s) (riOffset d.imm)).toNat (readReg d.ra s)) ∨
      (d.mnemonic = .CALL ∧ t.dmem = Memory.write s.dmem (s.sp - 1).toNat s.pc) := by
  rcases exec_next_cases h with ⟨-, _, rfl⟩ | ⟨-, _, _, rfl⟩ | ⟨hm, -, rfl⟩ | ⟨-, rfl⟩ | ⟨-, rfl⟩ | ⟨-, rfl⟩ |
    ⟨hm, -, rfl⟩ | ⟨-, -, rfl⟩ | ⟨-, rfl⟩
  -- STORE, then CALL
  case inr.inr.inl => exact .inr (.inl ⟨hm, rfl⟩)
  case inr.inr.inr.inr.inr.inr.inl => exact .inr (.inr ⟨hm, rfl⟩)
  -- BEQ and BNE, taken or not
  case inr.inr.inr.inl | inr.inr.inr.inr.inl => left; split <;> rfl
  all_goals exact .inl rfl

/-- A word that a write changed stands at the written address and reads as the value written. -/
theorem Memory.eq_of_read_write_ne {m : Memory} {x a : Nat} {v : Word}
    (h : Memory.read (Memory.write m x v) a ≠ Memory.read m a) : a = x ∧ Memory.read (Memory.write m x v) a = v := by
  have ha : a = x := by_contra fun hne => h (Memory.read_write_ne hne m v)
  exact ⟨ha, ha ▸ Memory.read_write_same m a v⟩

/-- The effective address in the arithmetic of R55: the sum modulo 2^16. -/
theorem effectiveAddress_riOffset_toNat (base imm : Word) :
    (effectiveAddress base (riOffset imm)).toNat = (base.toNat + imm.toNat) % 65536 := by
  simp [effectiveAddress, riOffset, BitVec.toNat_add]

/-- No execute phase that faults has changed data memory (R247). -/
theorem exec_fault_dmem {i : Instr} {s l : State} {c : FaultCause} (h : exec i s = .fault (.raised c l)) :
    l.dmem = s.dmem := by
  rcases exec_fault_cases h with ⟨_, _, _, -, -, hf⟩ | ⟨_, _, _, -, -, hf⟩ | ⟨_, -, -, hf⟩ | ⟨-, -, hf⟩ <;>
    cases hf <;> rfl

/-- A step that faults leaves data memory as it was (R247). -/
theorem step_fault_dmem {s l : State} {c : FaultCause} (h : step s = .fault (.raised c l)) : l.dmem = s.dmem := by
  rcases step_fault_cases h with ⟨-, hf⟩ | ⟨-, -, hf⟩ | ⟨-, -, d, -, hexec⟩
  · cases hf
  · cases hf
    rfl
  · exact (exec_fault_dmem hexec).trans (atExecute_dmem s d)

/-- Settles O46: the step executed an instruction, and only the one write of STORE or of CALL changes a data word. -/
theorem dataMemoryWrittenOnlyByStoreAndCall : Obligations.DataMemoryWrittenOnlyByStoreAndCall := by
  refine fun s => ⟨fun t a h hne => ?_, fun c l h a => by rw [step_fault_dmem h]⟩
  rcases step_next_cases h with ⟨-, -, rfl⟩ | ⟨-, -, d, hd, hexec⟩
  · exact absurd rfl hne
  · refine ⟨d, hd, ?_⟩
    rcases exec_dmem_cases hexec with hm | ⟨hstore, hm⟩ | ⟨hcall, hm⟩ <;> rw [hm] at hne ⊢
    · exact absurd rfl hne
    · obtain ⟨ha, hv⟩ := Memory.eq_of_read_write_ne hne
      exact .inl ⟨hstore, ha.trans (effectiveAddress_riOffset_toNat ..), hv⟩
    · obtain ⟨ha, hv⟩ := Memory.eq_of_read_write_ne hne
      exact .inr ⟨hcall, ha, hv⟩

end Sys2Proof.Machine
end

section
/-! PROOFS. The encoder and the decoder are inverse to each other, format by format, and reserved bits do not count. -/

namespace Sys2Proof

/-! ### The decoder by the opcode and the format -/

/-- A word with the opcode of a mnemonic decodes to that mnemonic (R82). -/
theorem decode_of_opcode {w : Word} {m : Mnemonic} (h : opcodeField w = opcodeOf m) :
    decode w = some (decodeAs m w) := by
  simp [decode, h, mnemonicOf_opcodeOf]

theorem decodeInstr_of_decode {w : Word} {d : Decoded} (h : decode w = some d) :
    decodeInstr w = some (instrOf d) := by
  simp [decodeInstr, h]

theorem decodeAs_of_I8 {m : Mnemonic} (hf : formatOf m = .I8) (w : Word) :
    decodeAs m w = { mnemonic := m, rd := rdField w, ra := 0, rb := 0, imm := imm8Field w } := by
  simp [decodeAs, hf]

theorem decodeAs_of_RI {m : Mnemonic} (hf : formatOf m = .RI) (w : Word) :
    decodeAs m w = { mnemonic := m, rd := rdField w, ra := raField w, rb := 0, imm := imm4Field w } := by
  simp [decodeAs, hf]

theorem decodeAs_of_R {m : Mnemonic} (hf : formatOf m = .R) (w : Word) :
    decodeAs m w = { mnemonic := m, rd := rdField w, ra := raField w, rb := rbField w, imm := 0 } := by
  simp [decodeAs, hf]

theorem decodeAs_of_J {m : Mnemonic} (hf : formatOf m = .J) (w : Word) :
    decodeAs m w = { mnemonic := m, rd := 0, ra := 0, rb := 0, imm := imm8Field w } := by
  simp [decodeAs, hf]

theorem decodeAs_of_N {m : Mnemonic} (hf : formatOf m = .N) (w : Word) :
    decodeAs m w = { mnemonic := m, rd := 0, ra := 0, rb := 0, imm := 0 } := by
  simp [decodeAs, hf]

/-! ### The formats stand in ranges of the opcode (R82) -/

theorem opcodeOf_lt_two_iff (m : Mnemonic) : (opcodeOf m).toNat < 2 ↔ formatOf m = .I8 := by
  cases m <;> decide

theorem opcodeOf_lt_five_iff (m : Mnemonic) : (opcodeOf m).toNat < 5 ↔ formatOf m = .I8 ∨ formatOf m = .RI := by
  cases m <;> decide

theorem opcodeOf_lt_ten_iff (m : Mnemonic) :
    (opcodeOf m).toNat < 10 ↔ formatOf m = .I8 ∨ formatOf m = .RI ∨ formatOf m = .R := by
  cases m <;> decide

theorem opcodeOf_mem_J_iff (m : Mnemonic) :
    10 ≤ (opcodeOf m).toNat ∧ (opcodeOf m).toNat < 14 ↔ formatOf m = .J := by
  cases m <;> decide

theorem fourteen_le_opcodeOf_iff (m : Mnemonic) : 14 ≤ (opcodeOf m).toNat ↔ formatOf m = .N := by
  cases m <;> decide

theorem opcodeOf_lt_fourteen_iff (m : Mnemonic) : (opcodeOf m).toNat < 14 ↔ formatOf m ≠ .N := by
  rw [← not_le, fourteen_le_opcodeOf_iff]

/-! ### Decoding what was encoded -/

/-- The encoder writes the opcode of the mnemonic (R95). -/
theorem opcodeField_encode (i : Instr) : opcodeField (encode i) = opcodeOf (mnemonicOfInstr i) := by
  cases i
  case loadi | lui | beq | bne | b | call => exact opcodeField_encodeByte ..
  all_goals exact opcodeField_encodeNibbles ..

/-- An encoding decodes by the format of its instruction's mnemonic. -/
theorem decodeInstr_encode (i : Instr) :
    decodeInstr (encode i) = some (instrOf (decodeAs (mnemonicOfInstr i) (encode i))) :=
  decodeInstr_of_decode (decode_of_opcode (opcodeField_encode i))

/-- An immediate of eight bits comes back from the word (R90). -/
theorem imm8Field_encodeByte_of_fits {imm : Word} (h : immFits8 imm = true) (op rd : BitVec 4) :
    imm8Field (encodeByte op rd imm) = imm :=
  (imm8Field_encodeByte op rd imm).trans (beq_iff_eq.mp h).symm

/-- An immediate of four signed bits comes back from the word (R89). -/
theorem imm4Field_encodeNibbles_of_fits {imm : Word} (h : immFits4 imm = true) (op rd ra : BitVec 4) :
    imm4Field (encodeNibbles op rd ra (imm.setWidth 4)) = imm :=
  (imm4Field_encodeNibbles op rd ra _).trans (beq_iff_eq.mp h).symm

/-- Settles O1: each field the decoder of the instruction's format reads is the one the encoder wrote. -/
theorem decodeOfEncodeIsTheInstruction : Obligations.DecodeOfEncodeIsTheInstruction := by
  intro i hwf
  rw [decodeInstr_encode]
  cases i <;> simp only [mnemonicOfInstr, encode]
  case loadi | lui =>
    rw [decodeAs_of_I8 rfl, rdField_encodeByte, imm8Field_encodeByte_of_fits hwf]; rfl
  case load | store | addi =>
    rw [decodeAs_of_RI rfl, rdField_encodeNibbles, raField_encodeNibbles, imm4Field_encodeNibbles_of_fits hwf]; rfl
  case add | sub | and | or | shft =>
    rw [decodeAs_of_R rfl, rdField_encodeNibbles, raField_encodeNibbles, rbField_encodeNibbles]; rfl
  case beq | bne | b | call =>
    rw [decodeAs_of_J rfl, imm8Field_encodeByte_of_fits hwf]; rfl
  case ret | halt => rw [decodeAs_of_N rfl]; rfl

/-! ### The encoder on the fields of a decoded instruction, format by format (R95) -/

theorem encode_instrOf_of_I8 {d : Decoded} (hf : formatOf d.mnemonic = .I8) :
    encode (instrOf d) = encodeByte (opcodeOf d.mnemonic) d.rd d.imm := by
  obtain ⟨m, rd, ra, rb, imm⟩ := d
  cases m <;> cases hf <;> rfl

theorem encode_instrOf_of_RI {d : Decoded} (hf : formatOf d.mnemonic = .RI) :
    encode (instrOf d) = encodeNibbles (opcodeOf d.mnemonic) d.rd d.ra (d.imm.setWidth 4) := by
  obtain ⟨m, rd, ra, rb, imm⟩ := d
  cases m <;> cases hf <;> rfl

theorem encode_instrOf_of_R {d : Decoded} (hf : formatOf d.mnemonic = .R) :
    encode (instrOf d) = encodeNibbles (opcodeOf d.mnemonic) d.rd d.ra d.rb := by
  obtain ⟨m, rd, ra, rb, imm⟩ := d
  cases m <;> cases hf <;> rfl

theorem encode_instrOf_of_J {d : Decoded} (hf : formatOf d.mnemonic = .J) :
    encode (instrOf d) = encodeByte (opcodeOf d.mnemonic) 0 d.imm := by
  obtain ⟨m, rd, ra, rb, imm⟩ := d
  cases m <;> cases hf <;> rfl

theorem encode_instrOf_of_N {d : Decoded} (hf : formatOf d.mnemonic = .N) :
    encode (instrOf d) = encodeNibbles (opcodeOf d.mnemonic) 0 0 0 := by
  obtain ⟨m, rd, ra, rb, imm⟩ := d
  cases m <;> cases hf <;> rfl

/-! ### Encoding what was decoded -/

/-- The decoder's I8 and J immediate is one a word can carry (R90). -/
theorem immFits8_imm8Field (w : Word) : immFits8 (imm8Field w) = true := by
  simp [immFits8, imm8Field]

/-- The decoder's RI immediate is one a word can carry (R89). -/
theorem immFits4_imm4Field (w : Word) : immFits4 (imm4Field w) = true := by
  rw [immFits4, setWidth_imm4Field, beq_iff_eq]
  rfl

/-- Whatever the decoder delivers is well formed. -/
theorem wellFormed_instrOf_decodeAs (m : Mnemonic) (w : Word) : (instrOf (decodeAs m w)).wellFormed = true := by
  cases m
  case LOADI | LUI | BEQ | BNE | B | CALL => exact immFits8_imm8Field w
  case LOAD | STORE | ADDI => exact immFits4_imm4Field w
  all_goals rfl

/-- A word of a format without reserved bits is the encoding of what it decodes to. -/
theorem encode_decodeAs_eq_self {m : Mnemonic} {w : Word} (ho : opcodeOf m = opcodeField w)
    (hf : formatOf m = .I8 ∨ formatOf m = .RI ∨ formatOf m = .R) : encode (instrOf (decodeAs m w)) = w := by
  rcases hf with hf | hf | hf
  · rw [decodeAs_of_I8 hf, encode_instrOf_of_I8 hf, ho]
    exact encodeByte_of_fields w
  · rw [decodeAs_of_RI hf, encode_instrOf_of_RI hf, ho, setWidth_imm4Field]
    exact encodeNibbles_of_fields w
  · rw [decodeAs_of_R hf, encode_instrOf_of_R hf, ho]
    exact encodeNibbles_of_fields w

/-- A J word encodes again to its opcode and its low byte. -/
theorem encode_decodeAs_toNat_of_J {m : Mnemonic} (hf : formatOf m = .J) (w : Word) :
    (encode (instrOf (decodeAs m w))).toNat = (opcodeOf m).toNat * 4096 + w.toNat % 256 := by
  rw [decodeAs_of_J hf, encode_instrOf_of_J hf, encodeByte_toNat, imm8Field_toNat]
  simp [Nat.mul_comm]

/-- An N word encodes again to its opcode. -/
theorem encode_decodeAs_toNat_of_N {m : Mnemonic} (hf : formatOf m = .N) (w : Word) :
    (encode (instrOf (decodeAs m w))).toNat = (opcodeOf m).toNat * 4096 := by
  rw [decodeAs_of_N hf, encode_instrOf_of_N hf, encodeNibbles_toNat]
  simp [Nat.mul_comm]

/-- Settles O2: the word decodes by its opcode's mnemonic, and the format of that mnemonic says what encoding the
fields gives. -/
theorem encodeOfDecodeClearsReservedBits : Obligations.EncodeOfDecodeClearsReservedBits := by
  intro w
  obtain ⟨m, hd, ho⟩ := decode_total w
  refine ⟨_, decodeInstr_of_decode hd, wellFormed_instrOf_decodeAs m w, ?_⟩
  rw [← opcodeField_toNat, ← ho]
  split_ifs with hten hfourteen
  · rw [encode_decodeAs_eq_self ho ((opcodeOf_lt_ten_iff m).mp hten)]
  · exact encode_decodeAs_toNat_of_J ((opcodeOf_mem_J_iff m).mp ⟨not_lt.mp hten, hfourteen⟩) w
  · exact encode_decodeAs_toNat_of_N ((fourteen_le_opcodeOf_iff m).mp (not_lt.mp hfourteen)) w

/-! ### Reserved bits -/

theorem opcodeField_eq_of_div {w w' : Word} (h : w.toNat / 4096 = w'.toNat / 4096) :
    opcodeField w = opcodeField w' :=
  BitVec.eq_of_toNat_eq (by simp only [opcodeField_toNat, h])

/-- Two J words with the same opcode and low byte decode alike (R92). -/
theorem decode_eq_of_J {w w' : Word} (hlo : 10 ≤ w.toNat / 4096) (hhi : w.toNat / 4096 < 14)
    (hop : w.toNat / 4096 = w'.toNat / 4096) (himm : w.toNat % 256 = w'.toNat % 256) : decode w = decode w' := by
  obtain ⟨m, hd, ho⟩ := decode_total w
  have ho' : opcodeField w' = opcodeOf m := (opcodeField_eq_of_div hop).symm.trans ho.symm
  have himm' : imm8Field w = imm8Field w' := BitVec.eq_of_toNat_eq (by simp only [imm8Field_toNat, himm])
  rw [← opcodeField_toNat, ← ho] at hlo hhi
  have hf : formatOf m = .J := (opcodeOf_mem_J_iff m).mp ⟨hlo, hhi⟩
  rw [hd, decode_of_opcode ho', decodeAs_of_J hf, decodeAs_of_J hf, himm']

/-- Two N words with the same opcode decode alike (R92). -/
theorem decode_eq_of_N {w w' : Word} (hlo : 14 ≤ w.toNat / 4096) (hop : w.toNat / 4096 = w'.toNat / 4096) :
    decode w = decode w' := by
  obtain ⟨m, hd, ho⟩ := decode_total w
  have ho' : opcodeField w' = opcodeOf m := (opcodeField_eq_of_div hop).symm.trans ho.symm
  rw [← opcodeField_toNat, ← ho] at hlo
  have hf : formatOf m = .N := (fourteen_le_opcodeOf_iff m).mp hlo
  rw [hd, decode_of_opcode ho', decodeAs_of_N hf, decodeAs_of_N hf]

/-- The encoder of format J writes 0 in bits 11:8. -/
theorem encodeByte_reserved (op : BitVec 4) (imm : Word) : (encodeByte op 0 imm).toNat / 256 % 16 = 0 := by
  rw [← rdField_toNat, rdField_encodeByte]
  rfl

/-- The encoder of format N writes 0 in bits 11:0. -/
theorem encodeNibbles_reserved (op : BitVec 4) : (encodeNibbles op 0 0 0).toNat % 4096 = 0 := by
  simp [encodeNibbles_toNat]

/-- Settles O3: both words of each pair have the same opcode and, in format J, the same low byte. -/
theorem reservedBitsAreIgnored : Obligations.ReservedBitsAreIgnored := by
  refine ⟨fun op x k hlo hhi => ?_, fun op x hlo => ?_, fun imm => ?_, encodeNibbles_reserved _,
    encodeNibbles_reserved _⟩
  · have hx := x.isLt
    have hk := k.isLt
    apply decode_eq_of_J <;> simp only [BitVec.toNat_ofNat] <;> omega
  · have hop := op.isLt
    have hx := x.isLt
    apply decode_eq_of_N <;> simp only [BitVec.toNat_ofNat] <;> omega
  · exact ⟨encodeByte_reserved _ imm, encodeByte_reserved _ imm, encodeByte_reserved _ imm, encodeByte_reserved _ imm⟩

/-! ### The decoded fields in the arithmetic of the word -/

/-- The RI immediate is the signed value of the low four bits (R89). -/
theorem imm4Field_toInt (w : Word) :
    (imm4Field w).toInt = if w.toNat % 16 < 8 then (w.toNat % 16 : Int) else (w.toNat % 16 : Int) - 16 := by
  have hfield : (imm4Field w).toInt = (rbField w).toInt := BitVec.toInt_signExtend_of_le (by decide)
  rw [hfield, BitVec.toInt_eq_toNat_cond, rbField_toNat]
  split <;> split <;> omega

/-- The opcode map lists the mnemonics in the order of their opcodes (R82). -/
theorem mnemonics_getElem_opcodeOf (m : Mnemonic) :
    [Mnemonic.LOADI, .LUI, .LOAD, .STORE, .ADDI, .ADD, .SUB, .AND, .OR, .SHFT, .BEQ, .BNE, .B, .CALL, .RET,
      .HALT][(opcodeOf m).toNat]? = some m := by
  cases m <;> rfl

/-- Settles O4: the opcode names the mnemonic, and the format of that mnemonic names the fields. -/
theorem decodedFieldsFollowTheFormat : Obligations.DecodedFieldsFollowTheFormat := by
  intro w
  obtain ⟨m, hd, ho⟩ := decode_total w
  refine ⟨_, hd, ?_⟩
  rw [← opcodeField_toNat, ← ho, decodeAs_mnemonic]
  refine ⟨mnemonics_getElem_opcodeOf m, ?_⟩
  -- the ranges of the opcode as the formats that stand in them
  simp only [opcodeOf_lt_two_iff, opcodeOf_lt_five_iff, opcodeOf_lt_ten_iff, opcodeOf_lt_fourteen_iff]
  cases hf : formatOf m
  case I8 => simp [decodeAs_of_I8 hf, rdField_toNat, imm8Field_toNat]
  case RI => simp [decodeAs_of_RI hf, rdField_toNat, raField_toNat, imm4Field_toInt]
  case R => simp [decodeAs_of_R hf, rdField_toNat, raField_toNat, rbField_toNat]
  case J => simp [decodeAs_of_J hf, imm8Field_toNat]
  case N => simp [decodeAs_of_N hf]

/-- Settles O5: the decoder run on the nine words. -/
theorem sampleWordsDecode : Obligations.SampleWordsDecode := by
  unfold Obligations.SampleWordsDecode
  decide

end Sys2Proof
end

section
/-! PROOFS. A register constant built from two bytes, and the only error a step raises. -/

namespace Sys2Proof.Machine

/-! ### A constant built from two bytes -/

/-- LOADI's value in the arithmetic of R170. -/
theorem imm8Value_toNat (imm : Word) : (imm8Value imm).toNat = imm.toNat % 256 :=
  imm8Field_toNat imm

/-- LUI's value in the arithmetic of R171: the immediate's low byte above the old low byte. -/
theorem luiValue_toNat (imm old : Word) :
    (luiValue imm old).toNat = 256 * (imm.toNat % 256) + old.toNat % 256 := by
  have hlow (v : Word) : (lowByte v).toNat = v.toNat % 256 := by simp [lowByte, BitVec.extractLsb'_toNat]
  rw [luiValue, BitVec.toNat_append, ← Nat.shiftLeft_add_eq_or_of_lt (lowByte old).isLt, hlow, hlow,
    Nat.shiftLeft_eq, Nat.mul_comm]

/-- The high byte of a word set above its low byte is the word. -/
theorem luiValue_imm8Value_bytes (k : Word) :
    luiValue (BitVec.ofNat 16 (k.toNat / 256)) (imm8Value (BitVec.ofNat 16 (k.toNat % 256))) = k := by
  apply BitVec.eq_of_toNat_eq
  have hk := k.isLt
  simp only [luiValue_toNat, imm8Value_toNat, BitVec.toNat_ofNat]
  omega

/-- Settles O19: both instructions write `rd` alone, and LUI keeps the byte LOADI wrote. -/
theorem loadiThenLuiBuildsConstant : Obligations.LoadiThenLuiBuildsConstant := by
  intro rd k s
  refine ⟨_, _, rfl, rfl, ?_, fun r hr => ?_, rfl⟩
  · rw [readReg_writeReg_same, readReg_writeReg_same, luiValue_imm8Value_bytes]
  · rw [readReg_writeReg_ne hr, readReg_writeReg_ne hr]

/-! ### The errors a step raises -/

/-- Execute raises OutOfBounds of data memory alone (R245, R247). -/
theorem exec_raises_outOfBounds {i : Instr} {s l : State} {c : FaultCause} (h : exec i s = .fault (.raised c l)) :
    ∃ a, c = .outOfBounds .dmem a ∧ s.config.dmemSize ≤ a := by
  rcases exec_fault_cases h with ⟨_, _, _, -, hb, hf⟩ | ⟨_, _, _, -, hb, hf⟩ | ⟨_, -, hb, hf⟩ | ⟨-, hb, hf⟩ <;>
    cases hf <;> exact ⟨_, rfl, Nat.not_lt.mp hb⟩

/-- Settles O40: the fetch raises OutOfBounds of instruction memory, execute that of data memory, and decode nothing. -/
theorem stepRaisesOnlyOutOfBounds : Obligations.StepRaisesOnlyOutOfBounds := by
  intro s l c h
  rcases step_fault_cases h with ⟨-, hf⟩ | ⟨-, hp, hf⟩ | ⟨-, -, d, -, hexec⟩
  · cases hf
  · cases hf
    exact .inl ⟨_, rfl, Nat.not_lt.mp hp⟩
  · obtain ⟨a, hc, ha⟩ := exec_raises_outOfBounds hexec
    exact .inr ⟨a, hc, ha⟩

end Sys2Proof.Machine
end

section
/-! PROOFS. The ALU: what each of the five operations answers, the selectors that fault, what overflow means, and that
the flags before an operation do not count. -/

namespace Sys2Proof.Machine

/-! ### The four flags -/

/-- The top bit of a word is its bit 15 (R113). -/
theorem msb_eq_getLsbD_fifteen (w : Word) : w.msb = w.getLsbD 15 := BitVec.msb_eq_getLsbD_last w

/-- N and Z follow the result, whatever C and V are (R113, R114). -/
theorem negativeZero_flagsOf (r : Word) (c v : Bool) : NegativeZero r (flagsOf r c v) := by
  refine ⟨msb_eq_getLsbD_fifteen r, ?_⟩
  rw [flagsOf, beq_iff_eq, ← BitVec.toNat_inj]
  rfl

theorem addCarry_iff (a b : Word) : addCarry a b = true ↔ a.toNat + b.toNat > 65535 := decide_eq_true_iff

theorem subCarry_iff (a b : Word) : subCarry a b = true ↔ a.toNat ≥ b.toNat := decide_eq_true_iff

theorem addOverflow_iff (a b r : Word) :
    addOverflow a b r = true ↔ a.getLsbD 15 = b.getLsbD 15 ∧ r.getLsbD 15 ≠ a.getLsbD 15 := by
  simp only [addOverflow, msb_eq_getLsbD_fifteen, Bool.and_eq_true, beq_iff_eq, bne_iff_ne]

theorem subOverflow_iff (a b r : Word) :
    subOverflow a b r = true ↔ a.getLsbD 15 ≠ b.getLsbD 15 ∧ r.getLsbD 15 ≠ a.getLsbD 15 := by
  simp only [subOverflow, msb_eq_getLsbD_fifteen, Bool.and_eq_true, bne_iff_ne]

/-! ### What each operation computes -/

/-- The flags of an addition are those of R116. -/
theorem addOutcome_add (a b : Word) :
    AddOutcome a b (a + b) (flagsOf (a + b) (addCarry a b) (addOverflow a b (a + b))) :=
  ⟨BitVec.toNat_add a b, negativeZero_flagsOf _ _ _, addCarry_iff a b, addOverflow_iff a b _⟩

/-- The difference of two words modulo 2^16, over the integers. -/
theorem word_sub_toNat (a b : Word) : ((a - b).toNat : Int) = ((a.toNat : Int) - (b.toNat : Int)) % 65536 := by
  have hb := b.isLt
  rw [BitVec.toNat_sub]
  omega

/-- The flags of a subtraction are those of R117. -/
theorem subOutcome_sub (a b : Word) :
    SubOutcome a b (a - b) (flagsOf (a - b) (subCarry a b) (subOverflow a b (a - b))) :=
  ⟨word_sub_toNat a b, negativeZero_flagsOf _ _ _, subCarry_iff a b, subOverflow_iff a b _⟩

/-- AND works bit by bit and clears C and V (R120). -/
theorem andOutcome_and (a b : Word) : AndOutcome a b (a &&& b) (flagsOf (a &&& b) false false) :=
  ⟨fun _ _ => BitVec.getLsbD_and, negativeZero_flagsOf _ _ _, rfl, rfl⟩

/-- OR works bit by bit and clears C and V (R121). -/
theorem orOutcome_or (a b : Word) : OrOutcome a b (a ||| b) (flagsOf (a ||| b) false false) :=
  ⟨fun _ _ => BitVec.getLsbD_or, negativeZero_flagsOf _ _ _, rfl, rfl⟩

theorem shiftAmount_eq (b : Word) : shiftAmount b = b.toNat % 16 := by
  simp [shiftAmount, BitVec.extractLsb'_toNat]

/-- The result and the flags of a shift are those of R118 and R119, with the carry X1 leaves open for an amount of 0. -/
theorem shftOutcome_shift (keeps old : Bool) (a b : Word) :
    ShftOutcome keeps old a b (shiftResult a b) (flagsOf (shiftResult a b) (shiftCarry keeps old a b) false) := by
  refine ⟨negativeZero_flagsOf _ _ _, rfl, ?_⟩
  simp only [shiftResult, shiftCarry, shiftsRight, flagsOf, shiftAmount_eq, msb_eq_getLsbD_fifteen]
  split_ifs with hzero hright
  · exact ⟨rfl, Bool.and_eq_true_iff⟩
  · exact ⟨by rw [BitVec.toNat_ushiftRight, Nat.shiftRight_eq_div_pow], rfl⟩
  · exact ⟨by rw [BitVec.toNat_shiftLeft, Nat.shiftLeft_eq], rfl⟩

/-! ### The operations by selector -/

/-- Settles O7: selector 0b000 adds. -/
theorem aluAddComputesSum : Obligations.AluAddComputesSum := fun a b _ =>
  ⟨_, _, alu_of_operation rfl, addOutcome_add a b, rfl⟩

/-- A word less itself is 0, with no borrow and no overflow (R117). -/
theorem aluSub_self (x : Word) : aluSub x x = (0, true, false) := by
  have hc : subCarry x x = true := (subCarry_iff x x).mpr le_rfl
  rw [aluSub, hc, subOverflow, bne_self_eq_false, Bool.false_and, sub_self]

/-- A word less 0 is itself, with no borrow (R117). -/
theorem aluSub_zero (x : Word) : aluSub x 0 = (x, true, subOverflow x 0 x) := by
  have hc : subCarry x 0 = true := (subCarry_iff x 0).mpr (Nat.zero_le _)
  rw [aluSub, hc, sub_zero]

/-- Settles O8: selector 0b001 subtracts, in the two corner cases too. -/
theorem aluSubComputesDifference : Obligations.AluSubComputesDifference :=
  ⟨fun a b _ => ⟨_, _, alu_of_operation rfl, subOutcome_sub a b, rfl⟩,
    fun x _ => ⟨_, alu_of_operation (congrArg some (aluSub_self x)), rfl⟩,
    fun x _ => ⟨_, alu_of_operation (congrArg some (aluSub_zero x)), rfl⟩⟩

/-- Settles O9: selector 0b010 is AND and selector 0b011 is OR. -/
theorem aluAndOrComputeBitwise : Obligations.AluAndOrComputeBitwise := fun a b _ =>
  ⟨⟨_, _, alu_of_operation rfl, andOutcome_and a b, rfl⟩, ⟨_, _, alu_of_operation rfl, orOutcome_or a b, rfl⟩⟩

/-- Settles O10: selector 0b100 shifts. -/
theorem aluShftComputesShift : Obligations.AluShftComputesShift := fun a b s =>
  ⟨_, _, alu_of_operation rfl, shftOutcome_shift s.config.shift0KeepsCarry s.flags.c a b, rfl⟩

/-- The selectors that name no operation are 0b101, 0b110 and 0b111 (R110, R111). -/
theorem aluOperation_eq_none_iff (keeps old : Bool) (sel : BitVec 3) (a b : Word) :
    aluOperation keeps old sel a b = none ↔ 5 ≤ sel.toNat := by
  unfold aluOperation
  split
  case h_6 hadd hsub hand hor hshft =>
    refine iff_of_true rfl ?_
    revert sel
    decide
  all_goals exact iff_of_false (Option.some_ne_none _) (by decide)

/-- Settles O11: a selector either names an operation, whose result fixes N and Z, or it is one of the three that
fault. -/
theorem aluSelectorsComputeOrFault : Obligations.AluSelectorsComputeOrFault := by
  intro sel a b s
  have hnone := aluOperation_eq_none_iff s.config.shift0KeepsCarry s.flags.c sel a b
  cases hop : aluOperation s.config.shift0KeepsCarry s.flags.c sel a b with
  | none =>
    have hsel := hnone.mp hop
    exact ⟨fun hle => by omega, fun _ => by simp only [alu, hop]⟩
  | some answer =>
    obtain ⟨r, c, v⟩ := answer
    exact ⟨fun _ => ⟨r, _, alu_of_operation hop, negativeZero_flagsOf r c v⟩,
      fun hge => absurd (hop.symm.trans (hnone.mpr hge)) (Option.some_ne_none _)⟩

/-! ### Overflow -/

/-- Equal operand signs and a result of the other sign is the signed sum leaving the range (R19). -/
theorem addOverflow_add_iff (a b : Word) :
    addOverflow a b (a + b) = true ↔ a.toInt + b.toInt < -32768 ∨ 32767 < a.toInt + b.toInt := by
  have hlib : addOverflow a b (a + b) = a.saddOverflow b := (BitVec.saddOverflow_eq a b).symm
  rw [hlib, BitVec.saddOverflow]
  simp only [Bool.or_eq_true, decide_eq_true_eq]
  omega

/-- Operand signs that differ and a result without the minuend's sign is the signed difference leaving the range
(R19). -/
theorem subOverflow_sub_iff (a b : Word) :
    subOverflow a b (a - b) = true ↔ a.toInt - b.toInt < -32768 ∨ 32767 < a.toInt - b.toInt := by
  have hlib : subOverflow a b (a - b) = a.ssubOverflow b := by
    rw [BitVec.ssubOverflow_eq, subOverflow]
    cases a.msb <;> cases b.msb <;> simp
  rw [hlib, BitVec.ssubOverflow]
  simp only [Bool.or_eq_true, decide_eq_true_eq]
  omega

/-- Settles O13: V is the overflow formula of the operation, which says that the signed result is out of range. -/
theorem overflowIsSignedRangeExceeded : Obligations.OverflowIsSignedRangeExceeded := by
  refine fun a b r s t => ⟨fun h => ?_, fun h => ?_⟩
  · obtain ⟨c, v, hop, rfl⟩ := alu_ok h
    cases hop
    exact addOverflow_add_iff a b
  · obtain ⟨c, v, hop, rfl⟩ := alu_ok h
    cases hop
    exact subOverflow_sub_iff a b

/-! ### The flags before the operation -/

/-- Where SHIFT0_KEEPS_CARRY is false no operation looks at the carry from before it (R112, R119). -/
theorem aluOperation_old_irrelevant (old old' : Bool) (sel : BitVec 3) (a b : Word) :
    aluOperation false old sel a b = aluOperation false old' sel a b := by
  have hshft : aluShft false old a b = aluShft false old' a b := by
    simp only [aluShft, shiftCarry, Bool.false_and]
  simp only [aluOperation, hshft]

/-- Settles O12: the operation is the same from the other flags, and it alone gives the flags after. -/
theorem aluIgnoresEarlierFlags : Obligations.AluIgnoresEarlierFlags := by
  intro sel a b r s t f hkeeps h
  obtain ⟨c, v, hop, rfl⟩ := alu_ok h
  rw [hkeeps, aluOperation_old_irrelevant s.flags.c f.c, ← hkeeps] at hop
  exact ⟨_, alu_of_operation (s := setFlags f s) hop, rfl⟩

end Sys2Proof.Machine
end

section
/-! PROOFS. The phases of a step, what it reports, how a run ends, and the datapath row by row of R150. -/

namespace Sys2Proof.Machine

/-! ### Every state of every run -/

/-- The program of a core that was built fits instruction memory (R272). -/
theorem program_fits_of_build_ok {p : Params} {s : State} (h : build p = .ok s) :
    (p.program.getD []).length ≤ p.config.imemSize := by
  by_contra hfits
  rw [build_eq_load, loadProgram_out (s := construct p) hfits] at h
  cases h

/-- The parts of R13 that legal parameters meet. -/
theorem Params.legal_iff {p : Params} :
    p.legal = true ↔ p.config.legal = true ∧ p.dmemInit.length = p.config.dmemSize := by
  simp [Params.legal]

/-- The invariant holds of a core built with legal parameters (R270). -/
theorem inv_of_build_ok {p : Params} {s : State} (hlegal : p.legal = true) (h : build p = .ok s) : Inv s := by
  obtain ⟨hconfig, hdmem⟩ := Params.legal_iff.mp hlegal
  have hprogram : 0 + (p.program.getD []).length ≤ p.config.imemSize :=
    (Nat.zero_add _).trans_le (program_fits_of_build_ok h)
  have hdata : 0 + p.dmemInit.length ≤ p.config.dmemSize := (Nat.zero_add _).trans_le hdmem.le
  rw [eq_of_build_ok h]
  exact ⟨hconfig, Memory.wf_ofWords _ 0, Memory.within_ofWords hprogram, Memory.wf_ofWords _ 0,
    Memory.within_ofWords hdata, rfl, rfl, rfl⟩

/-- Settles O51: the invariant holds of every built core and every step keeps it. -/
theorem reachableStatesMeetTheInvariant : Obligations.ReachableStatesMeetTheInvariant := by
  intro s h
  induction h with
  | built hlegal hbuild => exact inv_of_build_ok hlegal hbuild
  | stepped _ hstep ih => exact stepKeepsTheMachineInvariant _ _ ih hstep

/-! ### The flags -/

/-- Execute writes the flags for the six mnemonics that drive the ALU alone (R153). -/
theorem exec_flags {d : Decoded} {s t : State} (h : exec (instrOf d) s = .next t) :
    t.flags = s.flags ∨ d.mnemonic ∈ [Mnemonic.ADDI, .ADD, .SUB, .AND, .OR, .SHFT] := by
  rcases exec_next_cases h with ⟨-, _, rfl⟩ | ⟨hm, -⟩ | ⟨-, -, rfl⟩ | ⟨-, rfl⟩ | ⟨-, rfl⟩ | ⟨-, rfl⟩ |
    ⟨-, -, rfl⟩ | ⟨-, -, rfl⟩ | ⟨-, rfl⟩
  case inr.inl => exact .inr hm
  -- BEQ and BNE, taken or not
  case inr.inr.inr.inl | inr.inr.inr.inr.inl => left; split <;> rfl
  all_goals exact .inl rfl

/-- Settles O42: the step executed the decoded instruction, and execute writes the flags only through the ALU. -/
theorem flagsChangeOnlyInAluSteps : Obligations.FlagsChangeOnlyInAluSteps := by
  intro s t d hrun hd h hm
  exact (exec_flags (exec_of_step_next hrun hd h)).resolve_right hm

/-! ### The phases of a step -/

/-- A word that decodes to an instruction decodes to its fields, and the instruction is well formed (R81, R89, R90). -/
theorem exists_decode_of_decodeInstr {w : Word} {i : Instr} (h : decodeInstr w = some i) :
    ∃ d, decode w = some d ∧ instrOf d = i ∧ i.wellFormed = true := by
  obtain ⟨m, hd, -⟩ := decode_total w
  rw [decodeInstr_of_decode hd] at h
  cases h
  exact ⟨_, hd, rfl, wellFormed_instrOf_decodeAs m w⟩

/-- Settles O34: the step of a running core is its cycle, and a cycle inside instruction memory is execute at
`atExecute`. -/
theorem stepRunsDecodedInstruction : Obligations.StepRunsDecodedInstruction := by
  intro s i hrun hpc hi
  obtain ⟨d, hd, rfl, hwf⟩ := exists_decode_of_decodeInstr hi
  exact ⟨d, hd, rfl, hwf, (step_running hrun).trans (cycle_in hpc hd)⟩

/-- Settles O35: the two sides of fetch's bound, and the cycle that ends at the fetch. -/
theorem fetchAdvancesOrFaults : Obligations.FetchAdvancesOrFaults := by
  refine fun s => ⟨fun hpc => ⟨_, fetch_in hpc, rfl, word_add_one_toNat s.pc, rfl⟩, fun hpc => ?_⟩
  exact ⟨fetch_out hpc.not_gt, fun hrun => (step_running hrun).trans (cycle_out hpc.not_gt)⟩

/-! ### What a step reports -/

/-- A step of a core that was not halted reports its next state (R140). -/
theorem stepReport_of_next {s t : State} (hh : s.halted = false) (h : step s = .next t) :
    stepReport s = .advanced t := by
  simp [stepReport, h, hh]

/-- A step of a halted core reports that it did not advance (R142). -/
theorem stepReport_of_halted {s : State} (hh : s.halted = true) (hf : s.faulted = false) :
    stepReport s = .notAdvanced := by
  simp [stepReport, step_halted hh hf, hh]

/-- A step that faults reports the fault (R140). -/
theorem stepReport_of_fault {s : State} {f : Fault} (h : step s = .fault f) : stepReport s = .stopped f := by
  simp [stepReport, h]

/-- Settles O36: the step of a halted core and its report. -/
theorem haltedStepChangesNothing : Obligations.HaltedStepChangesNothing :=
  fun _ hh hf => ⟨step_halted hh hf, stepReport_of_halted hh hf⟩

/-- Settles O37: the report of each outcome a step can have. -/
theorem stepReportsItsOutcome : Obligations.StepReportsItsOutcome :=
  fun _ => ⟨fun _ => stepReport_of_next, stepReport_of_halted, fun _ => stepReport_of_fault⟩

/-! ### Runs that have ended -/

/-- A run that ended within the steps allowed ends the same way, after the same count, when more are allowed (R157,
R158). -/
theorem runFrom_eq_of_le {n m k : Nat} {s : State} (hle : n ≤ m) (hend : runFrom n k s ≠ .didNotEnd) :
    runFrom m k s = runFrom n k s := by
  induction n generalizing m k s with
  | zero =>
    cases hf : s.faulted with
    | true => rw [runFrom_faulted hf, runFrom_faulted hf]
    | false =>
      cases hh : s.halted with
      | true => rw [runFrom_halted hh hf, runFrom_halted hh hf]
      | false => exact absurd (runFrom_running_zero ⟨hh, hf⟩ k) hend
  | succ n ih =>
    obtain ⟨m, rfl⟩ := Nat.exists_eq_add_one_of_ne_zero (Nat.ne_zero_of_lt hle)
    cases hr : stepReport s <;> simp only [runFrom, hr] at hend ⊢
    case advanced t => exact ih (Nat.le_of_succ_le_succ hle) hend

/-- Settles O60: each of the two ends is not `didNotEnd`, so more steps do not change it. -/
theorem endedRunStaysEnded : Obligations.EndedRunStaysEnded := by
  intro n m s hle
  have hmore (hend : run n s ≠ .didNotEnd) : run m s = run n s := runFrom_eq_of_le hle hend
  exact ⟨fun k t h => (hmore (by simp [h])).trans h, fun k f h => (hmore (by simp [h])).trans h⟩

/-! ### The register file -/

/-- A read port reads the register of its index, and 0x0000 with no index (R148). -/
theorem readPort_eq_getD (i : Option Reg) (s : State) : readPort i s = (i.map fun r => readReg r s).getD 0 := by
  cases i <;> rfl

/-- The state after the combined access with its write enabled (R148). -/
@[simp] theorem rfAccess_state_of_enabled (ia ib : Option Reg) (wd : Reg) (data : Word) (s : State) :
    (rfAccess ia ib wd data true s).2 = writeReg wd data s := rfl

/-- The state after the combined access with its write disabled (R148). -/
@[simp] theorem rfAccess_state_of_disabled (ia ib : Option Reg) (wd : Reg) (data : Word) (s : State) :
    (rfAccess ia ib wd data false s).2 = s := rfl

/-- Settles O58: the two ports read the state before the write, and the enabled write is a register write. -/
theorem registerFileReadsThenWrites : Obligations.RegisterFileReadsThenWrites := by
  refine fun ia ib wd data we s => ⟨?_, fun hwe => ?_, fun hwe => ?_⟩
  · exact Prod.ext (readPort_eq_getD ia s) (readPort_eq_getD ib s)
  · rw [hwe, rfAccess_state_of_enabled]
    exact ⟨readReg_writeReg_same wd data s, fun r hr => readReg_writeReg_ne hr data s⟩
  · rw [hwe, rfAccess_state_of_disabled]

/-! ### The datapath: the memory access of R150's table -/

theorem datapathMemory_readEa {c : Control} (hc : c.memory = .readEa) (d : Decoded) (a b : Word) (s : State) :
    datapathMemory c d a b s = (memRead (effectiveAddress a (riOffset d.imm)) s).map (·, s) := by
  rw [datapathMemory, hc, riOffset]
  cases memRead (effectiveAddress a (signExtend d.imm 16)) s <;> rfl

theorem datapathMemory_writeEa {c : Control} (hc : c.memory = .writeEa) (d : Decoded) (a b : Word) (s : State) :
    datapathMemory c d a b s = (memWrite (effectiveAddress a (riOffset d.imm)) b s).map (0, ·) := by
  rw [datapathMemory, hc, riOffset]
  cases memWrite (effectiveAddress a (signExtend d.imm 16)) b s <;> rfl

theorem datapathMemory_push {c : Control} (hc : c.memory = .push) (d : Decoded) (a b : Word) (s : State) :
    datapathMemory c d a b s = (memWrite s.sp s.pc s).map (0, ·) := by
  rw [datapathMemory, hc]
  cases memWrite s.sp s.pc s <;> rfl

theorem datapathMemory_pop {c : Control} (hc : c.memory = .pop) (d : Decoded) (a b : Word) (s : State) :
    datapathMemory c d a b s = (memRead s.sp s).map (·, s) := by
  rw [datapathMemory, hc]
  cases memRead s.sp s <;> rfl

/-! ### The datapath: the rows that access data memory, none of which drives the ALU -/

/-- With the memory access done: the write-back, then the PC, the SP upward and the halted flag (R151, R152). -/
theorem datapath_of_memory_ok {c : Control} {d : Decoded} {s u : State} {v : Word} (halu : c.alu = none)
    (hmem : datapathMemory c d (readPort (portIndex c.portA d) s) (readPort (portIndex c.portB d) s)
      (datapathSpBefore c s) = .ok (v, u)) :
    datapath c d s =
      .next (datapathHalt c (datapathSpAfter c (setPc
        (datapathPc c d v (datapathWrite c d (readPort (portIndex c.portA d) s) 0 v u))
        (datapathWrite c d (readPort (portIndex c.portA d) s) 0 v u)))) := by
  simp only [datapath, datapathAlu, halu, rfAccess, hmem]

/-- With the memory access faulting: the SP moved down is the one write before it (R247). -/
theorem datapath_of_memory_error {c : Control} {d : Decoded} {s : State} {e : FaultCause} (halu : c.alu = none)
    (hmem : datapathMemory c d (readPort (portIndex c.portA d) s) (readPort (portIndex c.portB d) s)
      (datapathSpBefore c s) = .error e) :
    datapath c d s = raise e (datapathSpBefore c s) := by
  simp only [datapath, datapathAlu, halu, rfAccess, hmem]

theorem datapath_load (d : Decoded) (s : State) : datapath (controlOf .LOAD) d s = execLoad d.rd d.ra d.imm s := by
  have hmem := datapathMemory_readEa (c := controlOf .LOAD) rfl d (readReg d.ra s) 0 s
  rw [execLoad]
  cases haccess : memRead (effectiveAddress (readReg d.ra s) (riOffset d.imm)) s <;> rw [haccess] at hmem
  case error => exact datapath_of_memory_error rfl hmem
  case ok => exact datapath_of_memory_ok rfl hmem

theorem datapath_store (d : Decoded) (s : State) : datapath (controlOf .STORE) d s = execStore d.rd d.ra d.imm s := by
  have hmem := datapathMemory_writeEa (c := controlOf .STORE) rfl d (readReg d.rd s) (readReg d.ra s) s
  rw [execStore]
  cases haccess : memWrite (effectiveAddress (readReg d.rd s) (riOffset d.imm)) (readReg d.ra s) s <;>
    rw [haccess] at hmem
  case error => exact datapath_of_memory_error rfl hmem
  case ok => exact datapath_of_memory_ok rfl hmem

theorem datapath_call (d : Decoded) (s : State) : datapath (controlOf .CALL) d s = execCall d.imm s := by
  have hmem := datapathMemory_push (c := controlOf .CALL) rfl d 0 0 (decrementSp s)
  rw [execCall]
  cases haccess : memWrite (decrementSp s).sp (decrementSp s).pc (decrementSp s) <;> rw [haccess] at hmem
  case error => exact datapath_of_memory_error rfl hmem
  case ok => exact datapath_of_memory_ok rfl hmem

theorem datapath_ret (d : Decoded) (s : State) : datapath (controlOf .RET) d s = execRet s := by
  have hmem := datapathMemory_pop (c := controlOf .RET) rfl d 0 0 s
  rw [execRet]
  cases haccess : memRead s.sp s <;> rw [haccess] at hmem
  case error => exact datapath_of_memory_error rfl hmem
  case ok => exact datapath_of_memory_ok rfl hmem

/-! ### The datapath: the conditional branches

The datapath writes the PC it selects, the rule of the instruction selects whether to write it: writing back the PC as
it was changes nothing. -/

theorem datapath_beq (d : Decoded) (s : State) : datapath (controlOf .BEQ) d s = execBeq d.imm s :=
  congrArg Host.Outcome.next (apply_ite (setPc · s) ..)

theorem datapath_bne (d : Decoded) (s : State) : datapath (controlOf .BNE) d s = execBne d.imm s :=
  congrArg Host.Outcome.next (apply_ite (setPc · s) ..)

/-- Settles O52: row by row of R150's table. -/
theorem datapathExecutesEveryInstruction : Obligations.DatapathExecutesEveryInstruction := by
  rintro ⟨m, rd, ra, rb, imm⟩ s
  cases m
  case LOAD => exact datapath_load _ s
  case STORE => exact datapath_store _ s
  case CALL => exact datapath_call _ s
  case RET => exact datapath_ret _ s
  case BEQ => exact datapath_beq _ s
  case BNE => exact datapath_bne _ s
  -- the selector is a legal one, so the ALU computes on both sides
  case ADDI | ADD | SUB | AND | OR | SHFT => rfl
  -- one write, of a register, the PC or the halted flag
  case LOADI | LUI | B | HALT => rfl

end Sys2Proof.Machine
end

section
/-! PROOFS. LOADI, LUI, LOAD and STORE: the words that decode to them, and what execute answers. -/

namespace Sys2Proof

/-! ### A word given by its value -/

/-- The encoding of a well-formed instruction, given by its value, decodes to the instruction. -/
theorem decodeInstr_ofNat_of_encode_toNat {i : Instr} {n : Nat} (hwf : i.wellFormed = true)
    (hn : (encode i).toNat = n) : decodeInstr (BitVec.ofNat 16 n) = some i := by
  rw [← hn, BitVec.ofNat_toNat, BitVec.setWidth_eq]
  exact decodeOfEncodeIsTheInstruction i hwf

/-- A zero-extended byte is an immediate of format I8 or J (R90). -/
theorem immFits8_setWidth (k : BitVec 8) : immFits8 (k.setWidth 16) = true := by
  simp [immFits8]

theorem setWidth_signExtend_nibble (k : BitVec 4) : (k.signExtend 16).setWidth 4 = k := by
  rw [← imm4Field_encodeNibbles 0 0 0 k, setWidth_imm4Field, rbField_encodeNibbles]

/-- A sign-extended nibble is an immediate of format RI (R89). -/
theorem immFits4_signExtend (k : BitVec 4) : immFits4 (k.signExtend 16) = true := by
  simp [immFits4, setWidth_signExtend_nibble]

/-- The value of an I8 word (R85). -/
theorem encodeByte_setWidth_toNat (op rd : BitVec 4) (k : BitVec 8) :
    (encodeByte op rd (k.setWidth 16)).toNat = 0x1000 * op.toNat + 0x100 * rd.toNat + k.toNat := by
  have hk : (k.setWidth 16).toNat % 256 = k.toNat := by
    have := k.isLt
    rw [BitVec.toNat_setWidth]
    omega
  rw [encodeByte_toNat, hk]

/-- The value of an RI word (R84). -/
theorem encodeNibbles_signExtend_toNat (op rd ra k : BitVec 4) :
    (encodeNibbles op rd ra ((k.signExtend 16).setWidth 4)).toNat =
      0x1000 * op.toNat + 0x100 * rd.toNat + 0x10 * ra.toNat + k.toNat := by
  rw [setWidth_signExtend_nibble, encodeNibbles_toNat]

end Sys2Proof

namespace Sys2Proof.Machine

/-! ### The frame of a write of one register or of data memory -/

/-- A register write leaves every other register and every other part of the state. -/
theorem writeReg_frame (rd : Reg) (v : Word) (s : State) :
    RegsKeptBut rd s (writeReg rd v s) ∧ (writeReg rd v s).flags = s.flags ∧ ControlKept s (writeReg rd v s) ∧
      DataKept s (writeReg rd v s) ∧ ContextKept s (writeReg rd v s) :=
  ⟨fun _ hr => readReg_writeReg_ne hr v s, rfl, ⟨rfl, rfl, rfl⟩, fun _ => rfl, ⟨rfl, fun _ => rfl, rfl, rfl, rfl⟩⟩

/-- Replacing data memory leaves every other part of the state. -/
theorem setDmem_frame (m : Memory) (s : State) :
    RegsKept s (setDmem m s) ∧ (setDmem m s).flags = s.flags ∧ ControlKept s (setDmem m s) ∧
      ContextKept s (setDmem m s) :=
  ⟨fun _ => rfl, rfl, ⟨rfl, rfl, rfl⟩, ⟨rfl, fun _ => rfl, rfl, rfl, rfl⟩⟩

/-! ### LOADI and LUI -/

/-- Settles O15: execute is the one register write, of the zero-extended byte. -/
theorem loadiWritesZeroExtendedByte : Obligations.LoadiWritesZeroExtendedByte := by
  refine ⟨fun rd k => decodeInstr_ofNat_of_encode_toNat (immFits8_setWidth k) (encodeByte_setWidth_toNat ..),
    fun rd imm s => ⟨_, rfl, ?_, writeReg_frame ..⟩⟩
  rw [readReg_writeReg_same, imm8Value_toNat]

/-- Settles O16: execute is the one register write, of the two low bytes joined. -/
theorem luiKeepsLowByte : Obligations.LuiKeepsLowByte := by
  refine ⟨fun rd k => decodeInstr_ofNat_of_encode_toNat (immFits8_setWidth k) (encodeByte_setWidth_toNat ..),
    fun rd imm s => ⟨_, rfl, ?_, writeReg_frame ..⟩⟩
  rw [readReg_writeReg_same, luiValue_toNat, Nat.mul_comm]

/-! ### LOAD and STORE: the effective address inside data memory, then outside -/

/-- Settles O17: inside, execute is the one register write of the word read; outside, the read raises the fault. -/
theorem loadReadsWordOrFaults : Obligations.LoadReadsWordOrFaults := by
  refine ⟨fun rd ra k => decodeInstr_ofNat_of_encode_toNat (immFits4_signExtend k)
    (encodeNibbles_signExtend_toNat ..), fun rd ra imm s => ?_⟩
  rw [← effectiveAddress_riOffset_toNat]
  exact ⟨fun hin => ⟨_, execLoad_in hin, readReg_writeReg_same .., writeReg_frame ..⟩,
    fun hout => execLoad_out (Nat.not_lt.mpr hout)⟩

/-- Settles O18: inside, execute is the one write of data memory; outside, the write raises the fault. -/
theorem storeWritesWordOrFaults : Obligations.StoreWritesWordOrFaults := by
  refine ⟨fun rd ra k => decodeInstr_ofNat_of_encode_toNat (immFits4_signExtend k)
    (encodeNibbles_signExtend_toNat ..), fun rd ra imm s => ?_⟩
  rw [← effectiveAddress_riOffset_toNat]
  exact ⟨fun hin => ⟨_, execStore_in hin, Memory.read_write_same .., rfl,
      fun _ ha => Memory.read_write_ne ha _ _, setDmem_frame ..⟩,
    fun hout => execStore_out (Nat.not_lt.mpr hout)⟩

end Sys2Proof.Machine
end

section
/-! PROOFS. ADDI, ADD, SUB, AND, OR and SHFT: the words that decode to them, and what execute answers. -/

namespace Sys2Proof.Machine

/-! ### The write of a result and its flags -/

/-- The offset of an RI immediate is the immediate: the decoder has already extended it (R89). -/
@[simp] theorem riOffset_eq_self (imm : Word) : riOffset imm = imm := signExtend_sixteen imm

/-- Writing a register and the flags leaves every other register and every other part of the state. -/
theorem writeReg_setFlags_frame (rd : Reg) (v : Word) (f : Flags) (s : State) :
    RegsKeptBut rd s (writeReg rd v (setFlags f s)) ∧ ControlKept s (writeReg rd v (setFlags f s)) ∧
      DataKept s (writeReg rd v (setFlags f s)) ∧ ContextKept s (writeReg rd v (setFlags f s)) :=
  ⟨fun _ hr => readReg_writeReg_ne hr v _, ⟨rfl, rfl, rfl⟩, fun _ => rfl, ⟨rfl, fun _ => rfl, rfl, rfl, rfl⟩⟩

/-- An instruction that writes one register and the flags completes, leaves in `rd` and the flags what relates the
written values, and changes nothing else. `P` speaks of the operands as they were read before the write, so `rd` may be
one of their registers (R149). -/
theorem exists_next_of_writes {o : Host.Outcome State Fault Refusal} {rd : Reg} {r : Word} {f : Flags} {s : State}
    {P : Word → Flags → Prop} (ho : o = .next (writeReg rd r (setFlags f s))) (hP : P r f) :
    ∃ t, o = .next t ∧ P (readReg rd t) t.flags ∧
      RegsKeptBut rd s t ∧ ControlKept s t ∧ DataKept s t ∧ ContextKept s t := by
  refine ⟨_, ho, ?_, writeReg_setFlags_frame ..⟩
  rwa [readReg_writeReg_same]

/-! ### The six instructions: the words that encode each, then the ALU operation it selects -/

/-- Settles O20: the ALU adds the register and the immediate. -/
theorem addiAddsImmediate : Obligations.AddiAddsImmediate := by
  refine ⟨fun rd ra k => decodeInstr_ofNat_of_encode_toNat (immFits4_signExtend k)
    (encodeNibbles_signExtend_toNat ..), fun rd ra imm s => ?_⟩
  have hexec := execAddi_eq rd ra imm s
  rw [riOffset_eq_self] at hexec
  exact exists_next_of_writes hexec (addOutcome_add _ _)

/-- Settles O21: the ALU adds the two registers. -/
theorem addAddsRegisters : Obligations.AddAddsRegisters :=
  ⟨fun _ _ _ => decodeInstr_ofNat_of_encode_toNat rfl (encodeNibbles_toNat ..),
    fun rd ra rb s => exists_next_of_writes (execAdd_eq rd ra rb s) (addOutcome_add _ _)⟩

/-- Settles O22: the ALU subtracts the second register from the first. -/
theorem subSubtractsRegisters : Obligations.SubSubtractsRegisters :=
  ⟨fun _ _ _ => decodeInstr_ofNat_of_encode_toNat rfl (encodeNibbles_toNat ..),
    fun rd ra rb s => exists_next_of_writes (execSub_eq rd ra rb s) (subOutcome_sub _ _)⟩

/-- Settles O23: the ALU joins the two registers by AND. -/
theorem andMasksRegisters : Obligations.AndMasksRegisters :=
  ⟨fun _ _ _ => decodeInstr_ofNat_of_encode_toNat rfl (encodeNibbles_toNat ..),
    fun rd ra rb s => exists_next_of_writes (execAnd_eq rd ra rb s) (andOutcome_and _ _)⟩

/-- Settles O24: the ALU joins the two registers by OR. -/
theorem orJoinsRegisters : Obligations.OrJoinsRegisters :=
  ⟨fun _ _ _ => decodeInstr_ofNat_of_encode_toNat rfl (encodeNibbles_toNat ..),
    fun rd ra rb s => exists_next_of_writes (execOr_eq rd ra rb s) (orOutcome_or _ _)⟩

/-- Settles O25: the ALU shifts the first register as the second says; the carry it may keep is the one before the
instruction (X1). -/
theorem shftShiftsRegister : Obligations.ShftShiftsRegister :=
  ⟨fun _ _ _ => decodeInstr_ofNat_of_encode_toNat rfl (encodeNibbles_toNat ..),
    fun rd ra rb s => exists_next_of_writes (execShft_eq rd ra rb s) (shftOutcome_shift _ _ _ _)⟩

end Sys2Proof.Machine
end

section
/-! PROOFS. BEQ, BNE, B, CALL, RET and HALT: the words that decode to them and what execute answers; and that no step
tests N, C or V. -/

namespace Sys2Proof

/-! ### Words with reserved bits, given by their value -/

/-- A J word decodes to its mnemonic with its low byte, whatever its reserved bits `x` (R86, R92). -/
theorem decodeInstr_ofNat_of_J {m : Mnemonic} (hf : formatOf m = .J) (x : BitVec 4) (k : BitVec 8) :
    decodeInstr (BitVec.ofNat 16 (0x1000 * (opcodeOf m).toNat + 0x100 * x.toNat + k.toNat)) =
      some (instrOf { mnemonic := m, rd := 0, ra := 0, rb := 0, imm := k.setWidth 16 }) := by
  rw [← encodeByte_setWidth_toNat, BitVec.ofNat_toNat, BitVec.setWidth_eq,
    decodeInstr_of_decode (decode_of_opcode (opcodeField_encodeByte ..)), decodeAs_of_J hf,
    imm8Field_encodeByte_of_fits (immFits8_setWidth k)]

/-- An N word decodes to its mnemonic, whatever its reserved bits `x` (R87, R92). -/
theorem decodeInstr_ofNat_of_N {m : Mnemonic} (hf : formatOf m = .N) (x : BitVec 12) :
    decodeInstr (BitVec.ofNat 16 (0x1000 * (opcodeOf m).toNat + x.toNat)) =
      some (instrOf { mnemonic := m, rd := 0, ra := 0, rb := 0, imm := 0 }) := by
  have hop : opcodeField (BitVec.ofNat 16 (0x1000 * (opcodeOf m).toNat + x.toNat)) = opcodeOf m := by
    apply BitVec.eq_of_toNat_eq
    have := (opcodeOf m).isLt
    have := x.isLt
    rw [opcodeField_toNat, BitVec.toNat_ofNat]
    omega
  rw [decodeInstr_of_decode (decode_of_opcode hop), decodeAs_of_N hf]

end Sys2Proof

namespace Sys2Proof.Machine

/-! ### Two states that differ in N, C and V -/

theorem sameButUntestedFlags_setFlags {f : Flags} {s : State} (hz : f.z = s.flags.z) :
    SameButUntestedFlags s (setFlags f s) :=
  ⟨rfl, hz⟩

/-- The same error raised in both states leaves both with the same mark. -/
theorem outcomesAgree_raise {f : Flags} {s : State} (hz : f.z = s.flags.z) (c : FaultCause) :
    OutcomesAgree (raise c s) (raise c (setFlags f s)) :=
  ⟨rfl, sameButUntestedFlags_setFlags (s := setFaulted s) hz⟩

/-- An access that one bound decides in both states completes in both or raises the same error in both. -/
theorem outcomesAgree_of_bound {inside : Prop} {o o' : Host.Outcome State Fault Refusal} {f : Flags} {t l : State}
    {c : FaultCause} (hin : inside → o = .next t ∧ o' = .next (setFlags f t))
    (hout : ¬inside → o = raise c l ∧ o' = raise c (setFlags f l)) (ht : f.z = t.flags.z) (hl : f.z = l.flags.z) :
    OutcomesAgree o o' := by
  by_cases hb : inside
  · obtain ⟨rfl, rfl⟩ := hin hb
    exact sameButUntestedFlags_setFlags ht
  · obtain ⟨rfl, rfl⟩ := hout hb
    exact outcomesAgree_raise hl c

/-- The carry before an operation decides neither whether the selector is legal nor the result (R112, X1). -/
theorem aluOperation_result_old_irrelevant (keeps old old' : Bool) (sel : BitVec 3) (a b : Word) :
    (aluOperation keeps old sel a b).map Prod.fst = (aluOperation keeps old' sel a b).map Prod.fst := by
  unfold aluOperation
  split <;> rfl

/-- The ALU's result fixes the register and Z; only C may come from the flags before (X1). -/
theorem aluWriteBack_agrees {f : Flags} {s : State} (hz : f.z = s.flags.z) (sel : BitVec 3) (rd : Reg) (a b : Word) :
    OutcomesAgree (aluWriteBack sel rd a b s) (aluWriteBack sel rd a b (setFlags f s)) := by
  have hresult := aluOperation_result_old_irrelevant s.config.shift0KeepsCarry s.flags.c f.c sel a b
  cases hop : aluOperation s.config.shift0KeepsCarry s.flags.c sel a b with
  | none =>
    have hop' : aluOperation s.config.shift0KeepsCarry f.c sel a b = none := by simpa [hop] using hresult.symm
    simp only [aluWriteBack, alu, hop, setFlags_config, setFlags_flags, hop']
    exact outcomesAgree_raise hz _
  | some answer =>
    obtain ⟨r, c, v⟩ := answer
    obtain ⟨⟨r', c', v'⟩, hop', hr⟩ : ∃ answer, aluOperation s.config.shift0KeepsCarry f.c sel a b = some answer ∧
        answer.1 = r := by simpa [hop] using hresult.symm
    cases hr
    rw [aluWriteBack_of_operation hop, aluWriteBack_of_operation (s := setFlags f s) hop']
    exact ⟨rfl, rfl⟩

/-- Execute from two states that differ in N, C and V has the same outcome but for N, C and V (R211). -/
theorem exec_agrees {f : Flags} {s : State} (hz : f.z = s.flags.z) (i : Instr) :
    OutcomesAgree (exec i s) (exec i (setFlags f s)) := by
  cases i
  case addi | add | sub | and | or | shft =>
    simp only [exec, execAddi, execAdd, execSub, execAnd, execOr, execShft, readReg_setFlags]
    exact aluWriteBack_agrees hz ..
  -- one write, of a register, the PC or the halted flag
  case loadi | lui | b | halt => exact ⟨rfl, hz⟩
  -- the one flag tested is Z
  case beq | bne =>
    simp only [exec, execBeq, execBne, setFlags_flags, hz]
    split <;> exact ⟨rfl, hz⟩
  -- the address and its bound are the same in both states
  case load =>
    refine outcomesAgree_of_bound (fun hb => ⟨execLoad_in hb, execLoad_in (s := setFlags f s) hb⟩)
      (fun hb => ⟨execLoad_out hb, execLoad_out (s := setFlags f s) hb⟩) ?_ ?_ <;> exact hz
  case store =>
    refine outcomesAgree_of_bound (fun hb => ⟨execStore_in hb, execStore_in (s := setFlags f s) hb⟩)
      (fun hb => ⟨execStore_out hb, execStore_out (s := setFlags f s) hb⟩) ?_ ?_ <;> exact hz
  case call =>
    refine outcomesAgree_of_bound (fun hb => ⟨execCall_in hb, execCall_in (s := setFlags f s) hb⟩)
      (fun hb => ⟨execCall_out hb, execCall_out (s := setFlags f s) hb⟩) ?_ ?_ <;> exact hz
  case ret =>
    refine outcomesAgree_of_bound (fun hb => ⟨execRet_in hb, execRet_in (s := setFlags f s) hb⟩)
      (fun hb => ⟨execRet_out hb, execRet_out (s := setFlags f s) hb⟩) ?_ ?_ <;> exact hz

/-- Fetch and decode look at no flag, so the two cycles execute the same instruction or raise the same fault. -/
theorem cycle_agrees {f : Flags} {s : State} (hz : f.z = s.flags.z) :
    OutcomesAgree (cycle s) (cycle (setFlags f s)) := by
  by_cases hpc : s.pc.toNat < s.config.imemSize
  · obtain ⟨m, hd, -⟩ := decode_total (fetchedWord s)
    rw [cycle_in hpc hd, cycle_in (s := setFlags f s) hpc hd]
    exact exec_agrees (s := atExecute s _) hz _
  · rw [cycle_out hpc, cycle_out (s := setFlags f s) hpc]
    exact outcomesAgree_raise hz _

/-- Settles O53: a faulted core has no step, a halted one stays as it is, and a running one does a cycle, from both
states alike. -/
theorem untestedFlagsInfluenceNothingElse : Obligations.UntestedFlagsInfluenceNothingElse := by
  intro s f hz
  change OutcomesAgree (step s) (step (setFlags f s))
  cases hf : s.faulted with
  | true =>
    rw [step_faulted hf, step_faulted (s := setFlags f s) hf]
    trivial
  | false =>
    cases hh : s.halted with
    | true =>
      rw [step_halted hh hf, step_halted (s := setFlags f s) hh hf]
      exact sameButUntestedFlags_setFlags hz
    | false =>
      rw [step_running ⟨hh, hf⟩, step_running (s := setFlags f s) ⟨hh, hf⟩]
      exact cycle_agrees hz

/-! ### The branches: each is one write of the PC -/

/-- A write of the PC leaves every other part of the state. -/
theorem setPc_frame (p : Word) (s : State) :
    (setPc p s).sp = s.sp ∧ (setPc p s).halted = s.halted ∧ (setPc p s).flags = s.flags ∧ RegsKept s (setPc p s) ∧
      DataKept s (setPc p s) ∧ ContextKept s (setPc p s) :=
  ⟨rfl, rfl, rfl, fun _ => rfl, fun _ => rfl, ⟨rfl, fun _ => rfl, rfl, rfl, rfl⟩⟩

/-- A BEQ that is not taken writes the PC back as it was (R212). -/
theorem execBeq_eq (imm : Word) (s : State) :
    execBeq imm s = .next (setPc (if s.flags.z then branchTarget s.pc imm else s.pc) s) :=
  congrArg Host.Outcome.next (apply_ite (setPc · s) ..).symm

/-- A BNE that is not taken writes the PC back as it was (R213). -/
theorem execBne_eq (imm : Word) (s : State) :
    execBne imm s = .next (setPc (if s.flags.z then s.pc else branchTarget s.pc imm) s) :=
  congrArg Host.Outcome.next (apply_ite (setPc · s) ..).symm

/-- Settles O26: execute writes the PC that Z selects. -/
theorem beqBranchesOnZero : Obligations.BeqBranchesOnZero := by
  refine ⟨decodeInstr_ofNat_of_J (m := .BEQ) rfl, fun imm s =>
    ⟨_, execBeq_eq imm s, fun hz => ?_, fun hz => ?_, setPc_frame ..⟩⟩
  · rw [setPc_pc, if_pos hz]
    exact goesTo_branchTarget ..
  · rw [setPc_pc, hz]
    rfl

/-- Settles O27: execute writes the PC that Z selects. -/
theorem bneBranchesOnNotZero : Obligations.BneBranchesOnNotZero := by
  refine ⟨decodeInstr_ofNat_of_J (m := .BNE) rfl, fun imm s =>
    ⟨_, execBne_eq imm s, fun hz => ?_, fun hz => ?_, setPc_frame ..⟩⟩
  · rw [setPc_pc, hz]
    exact goesTo_branchTarget ..
  · rw [setPc_pc, if_pos hz]

/-- Settles O28: execute writes the target. -/
theorem branchAlwaysGoesToTarget : Obligations.BranchAlwaysGoesToTarget :=
  ⟨decodeInstr_ofNat_of_J (m := .B) rfl, fun _ _ => ⟨_, rfl, goesTo_branchTarget .., setPc_frame ..⟩⟩

/-! ### CALL and RET: the stack slot inside data memory, then outside -/

/-- Settles O29: inside, the push is the one write of data memory; outside, it raises the fault after the decrement. -/
theorem callPushesReturnAddressOrFaults : Obligations.CallPushesReturnAddressOrFaults := by
  refine ⟨decodeInstr_ofNat_of_J (m := .CALL) rfl, fun imm s =>
    ⟨fun hin => ?_, fun hout => execCall_out (Nat.not_lt.mpr hout)⟩⟩
  exact ⟨_, execCall_in hin, word_sub_one_toNat s.sp, rfl, Memory.read_write_same .., fun _ ha =>
    Memory.read_write_ne ha _ _, goesTo_branchTarget .., rfl, rfl, fun _ => rfl, ⟨rfl, fun _ => rfl, rfl, rfl, rfl⟩⟩

/-- Settles O30: inside, the word read goes to the PC; outside, the read raises the fault before any write. -/
theorem retPopsReturnAddressOrFaults : Obligations.RetPopsReturnAddressOrFaults := by
  refine ⟨decodeInstr_ofNat_of_N (m := .RET) rfl, fun s =>
    ⟨fun hin => ?_, fun hout => execRet_out (Nat.not_lt.mpr hout)⟩⟩
  exact ⟨_, execRet_in hin, rfl, word_add_one_toNat s.sp, rfl, rfl, fun _ => rfl, fun _ => rfl,
    ⟨rfl, fun _ => rfl, rfl, rfl, rfl⟩⟩

/-- A CALL that completes had its stack slot inside data memory, and left the return address there (R216). -/
theorem execCall_next {imm : Word} {s t : State} (h : execCall imm s = .next t) :
    t.sp.toNat < t.config.dmemSize ∧ t.sp = s.sp - 1 ∧ Memory.read t.dmem t.sp.toNat = s.pc := by
  by_cases hin : (s.sp - 1).toNat < s.config.dmemSize
  · rw [execCall_in hin] at h
    cases h
    exact ⟨hin, rfl, Memory.read_write_same ..⟩
  · rw [execCall_out hin] at h
    exact absurd h (raise_ne_next _ _ _)

/-- Settles O32: the slot that CALL wrote is the one RET reads. -/
theorem callThenRetReturns : Obligations.CallThenRetReturns := by
  intro imm s t u h hsp hconfig hslot
  obtain ⟨hin, hcall, hret⟩ := execCall_next h
  have hin' : u.sp.toNat < u.config.dmemSize := by rwa [hsp, hconfig]
  refine ⟨_, execRet_in hin', hslot.trans hret, ?_⟩
  rw [incrementSp_sp, setPc_sp, hsp, hcall, sub_add_cancel]

/-! ### HALT, and a target outside instruction memory -/

/-- Settles O31: execute sets the halted flag alone, and the step of HALT is that execute after fetch and decode. -/
theorem haltEntersHaltedForGood : Obligations.HaltEntersHaltedForGood := by
  refine ⟨decodeInstr_ofNat_of_N (m := .HALT) rfl, fun s => ?_, fun s hrun hpc hi => ?_⟩
  · exact ⟨_, rfl, rfl, rfl, rfl, rfl, fun _ => rfl, fun _ => rfl, ⟨rfl, fun _ => rfl, rfl, rfl, rfl⟩,
      haltedStepChangesNothing (setHalted s) rfl⟩
  · obtain ⟨d, -, -, -, hstep⟩ := stepRunsDecodedInstruction s .halt hrun hpc hi
    exact ⟨_, stepReport_of_next hrun.1 hstep, rfl, word_add_one_toNat s.pc⟩

/-- A PC and an immediate have one target (R210). -/
theorem GoesTo.unique {pc imm target target' : Word} (h : GoesTo pc imm target) (h' : GoesTo pc imm target') :
    target = target' :=
  BitVec.eq_of_toNat_eq (Int.ofNat_inj.mp (Eq.trans h h'.symm))

/-- Settles O33: the step of B writes the target, and the fetch there is out of bounds. -/
theorem outsideTargetFaultsAtNextFetch : Obligations.OutsideTargetFaultsAtNextFetch := by
  intro s imm target hrun hpc hi htarget hout
  obtain ⟨d, -, -, -, hstep⟩ := stepRunsDecodedInstruction s (.b imm) hrun hpc hi
  cases htarget.unique (goesTo_branchTarget (s.pc + 1) imm)
  exact ⟨_, hstep, rfl, ((fetchAdvancesOrFaults _).2 hout).2 hrun⟩

end Sys2Proof.Machine
end

section
/-! PROOFS. The faults: which steps raise one, the state it leaves, that it is terminal, and the ALU's error on a
name outside the five. -/

namespace Sys2Proof.Machine

/-! ### Which instructions fault in execute -/

/-- Execute faults exactly in the rows of R247 that access data memory: by the mnemonic executed, the address that is
out of bounds and the state left. -/
theorem exec_fault_iff {d : Decoded} {s : State} {f : Fault} :
    exec (instrOf d) s = .fault f ↔
      (d.mnemonic = .LOAD ∧ s.config.dmemSize ≤ (effectiveAddress (readReg d.ra s) (riOffset d.imm)).toNat ∧
        f = .raised (.outOfBounds .dmem (effectiveAddress (readReg d.ra s) (riOffset d.imm)).toNat) (setFaulted s)) ∨
      (d.mnemonic = .STORE ∧ s.config.dmemSize ≤ (effectiveAddress (readReg d.rd s) (riOffset d.imm)).toNat ∧
        f = .raised (.outOfBounds .dmem (effectiveAddress (readReg d.rd s) (riOffset d.imm)).toNat) (setFaulted s)) ∨
      (d.mnemonic = .CALL ∧ s.config.dmemSize ≤ (s.sp - 1).toNat ∧
        f = .raised (.outOfBounds .dmem (s.sp - 1).toNat) (setFaulted (decrementSp s))) ∨
      (d.mnemonic = .RET ∧ s.config.dmemSize ≤ s.sp.toNat ∧
        f = .raised (.outOfBounds .dmem s.sp.toNat) (setFaulted s)) := by
  constructor
  · intro h
    have hm := mnemonicOfInstr_instrOf d
    rcases exec_fault_cases h with ⟨_, _, _, hi, hb, hf⟩ | ⟨_, _, _, hi, hb, hf⟩ | ⟨_, hi, hb, hf⟩ | ⟨hi, hb, hf⟩ <;>
      rw [hi, mnemonicOfInstr] at hm <;> simp only [instrOf, ← hm] at hi <;> cases hi
    · exact .inl ⟨hm.symm, Nat.not_lt.mp hb, hf⟩
    · exact .inr (.inl ⟨hm.symm, Nat.not_lt.mp hb, hf⟩)
    · exact .inr (.inr (.inl ⟨hm.symm, Nat.not_lt.mp hb, hf⟩))
    · exact .inr (.inr (.inr ⟨hm.symm, Nat.not_lt.mp hb, hf⟩))
  · rintro (⟨hm, hb, rfl⟩ | ⟨hm, hb, rfl⟩ | ⟨hm, hb, rfl⟩ | ⟨hm, hb, rfl⟩) <;> simp only [instrOf, hm, exec]
    · exact execLoad_out hb.not_gt
    · exact execStore_out hb.not_gt
    · exact execCall_out hb.not_gt
    · exact execRet_out hb.not_gt

/-- When execute faults, in the arithmetic of R55. -/
theorem exists_exec_fault_iff {d : Decoded} {s : State} :
    (∃ f, exec (instrOf d) s = .fault f) ↔
      (d.mnemonic = .LOAD ∧ s.config.dmemSize ≤ ((readReg d.ra s).toNat + d.imm.toNat) % 65536) ∨
      (d.mnemonic = .STORE ∧ s.config.dmemSize ≤ ((readReg d.rd s).toNat + d.imm.toNat) % 65536) ∨
      (d.mnemonic = .CALL ∧ s.config.dmemSize ≤ (s.sp - 1).toNat) ∨
      (d.mnemonic = .RET ∧ s.config.dmemSize ≤ s.sp.toNat) := by
  simp only [exec_fault_iff, effectiveAddress_riOffset_toNat, exists_or, exists_and_left, exists_eq, and_true]

/-- A fault of execute leaves the core faulted (R246). -/
theorem exec_fault_faulted {d : Decoded} {s l : State} {c : FaultCause}
    (h : exec (instrOf d) s = .fault (.raised c l)) : l.faulted = true := by
  rcases exec_fault_iff.mp h with ⟨-, -, hf⟩ | ⟨-, -, hf⟩ | ⟨-, -, hf⟩ | ⟨-, -, hf⟩ <;> cases hf <;> rfl

/-- Every instruction has a meaning. -/
theorem exec_ne_refused (i : Instr) (s : State) (r : Refusal) : exec i s ≠ .refused r := by
  cases i
  case load | store | call | ret =>
    simp only [exec, execLoad, execStore, execCall, execRet]
    split <;> simp
  case addi | add | sub | and | or | shft =>
    simp [exec, execAddi_eq, execAdd_eq, execSub_eq, execAnd_eq, execOr_eq, execShft_eq]
  all_goals nofun

/-! ### Which steps fault -/

/-- A step inside instruction memory executes what the fetched word decodes to. -/
theorem step_in {s : State} {d : Decoded} (hrun : Running s) (hpc : s.pc.toNat < s.config.imemSize)
    (hd : decode (fetchedWord s) = some d) : step s = exec (instrOf d) (atExecute s d) :=
  (step_running hrun).trans (cycle_in hpc hd)

/-- A step outside instruction memory raises the fault of its fetch. -/
theorem step_out {s : State} (hrun : Running s) (hpc : s.config.imemSize ≤ s.pc.toNat) :
    step s = raise (.outOfBounds .imem s.pc.toNat) s :=
  (step_running hrun).trans (cycle_out hpc.not_gt)

/-- No step is refused: one of a running core faults at the fetch or is execute's. -/
theorem step_ne_refused (s : State) (r : Refusal) : step s ≠ .refused r := by
  by_cases hf : s.faulted = true
  · simp [step_faulted hf]
  by_cases hh : s.halted = true
  · simp [step_halted hh (Bool.eq_false_of_not_eq_true hf)]
  have hrun : Running s := ⟨Bool.eq_false_of_not_eq_true hh, Bool.eq_false_of_not_eq_true hf⟩
  rcases Nat.lt_or_ge s.pc.toNat s.config.imemSize with hin | hout
  · obtain ⟨m, hd, -⟩ := decode_total (fetchedWord s)
    rw [step_in hrun hin hd]
    exact exec_ne_refused _ _ r
  · rw [step_out hrun hout]
    exact raise_ne_refused _ s r

/-- Settles O39: a running core's step ends at the fetch or is execute, which faults exactly outside data memory. -/
theorem stepFaultsExactlyOutOfBounds : Obligations.StepFaultsExactlyOutOfBounds := by
  refine fun s => ⟨step_ne_refused s, fun hrun => ?_⟩
  rcases Nat.lt_or_ge s.pc.toNat s.config.imemSize with hin | hout
  · obtain ⟨m, hd, -⟩ := decode_total (fetchedWord s)
    rw [step_in hrun hin hd, exists_exec_fault_iff]
    refine ⟨fun h => .inr ⟨_, hin, hd, h⟩, ?_⟩
    rintro (hout | ⟨d, -, hd', h⟩)
    · exact absurd hin hout.not_gt
    · cases hd.symm.trans hd'
      exact h
  · exact ⟨fun _ => .inl hout, fun _ => ⟨_, step_out hrun hout⟩⟩

/-! ### The state a fault leaves -/

/-- Settles O41: the fetch leaves the state before the step, LOAD, STORE and RET the one execute begins in, and CALL
that one with the SP moved down, each with the mark. -/
theorem faultLeavesEarlierWritesOnly : Obligations.FaultLeavesEarlierWritesOnly := by
  intro s l c h
  rcases step_fault_cases h with ⟨-, hf⟩ | ⟨-, hout, hf⟩ | ⟨-, hin, d, hd, hexec⟩
  · cases hf
  · cases hf
    exact .inl ⟨Nat.not_lt.mp hout, rfl, rfl⟩
  · refine .inr ⟨d, hin, hd, ?_⟩
    rcases exec_fault_iff.mp hexec with ⟨hm, -, hf⟩ | ⟨hm, -, hf⟩ | ⟨hm, -, hf⟩ | ⟨hm, -, hf⟩ <;> cases hf
    · exact .inl ⟨by simp [hm], rfl⟩
    · exact .inl ⟨by simp [hm], rfl⟩
    · exact .inr ⟨hm, rfl, rfl⟩
    · exact .inl ⟨by simp [hm], rfl⟩

/-- A step that raises a fault leaves the core faulted (R246). -/
theorem step_fault_faulted {s l : State} {c : FaultCause} (h : step s = .fault (.raised c l)) : l.faulted = true := by
  rcases step_fault_cases h with ⟨-, hf⟩ | ⟨-, -, hf⟩ | ⟨-, -, d, -, hexec⟩
  · cases hf
  · cases hf
    rfl
  · exact exec_fault_faulted hexec

/-- A step that answers a next state leaves the mark clear: execute does not write it (R246). -/
theorem step_next_faulted {s t : State} (h : step s = .next t) : t.faulted = false := by
  rcases step_next_cases h with ⟨-, hf, rfl⟩ | ⟨hrun, -, d, -, hexec⟩
  · exact hf
  · obtain ⟨-, -, -, -, hfaulted⟩ := exec_keeps_context hexec
    exact hfaulted.trans hrun.2

/-- Settles O38: the mark is set by every fault, by nothing else, and ends the steps. -/
theorem faultIsTerminal : Obligations.FaultIsTerminal :=
  fun _ => ⟨fun _ _ h => ⟨step_fault_faulted h, step_faulted (step_fault_faulted h)⟩, step_faulted,
    fun _ => step_next_faulted⟩

/-! ### The name-level ALU -/

/-- A name outside the five stands for no selector (R242). -/
theorem selectorOfName_of_not_mem {name : String} (h : name ∉ ["ADD", "SUB", "AND", "OR", "SHFT"]) :
    selectorOfName name = .error (.invalidOperation name) := by
  simp only [List.mem_cons, List.not_mem_nil, or_false, not_or] at h
  obtain ⟨hadd, hsub, hand, hor, hshft⟩ := h
  simp only [selectorOfName, if_neg hadd, if_neg hsub, if_neg hand, if_neg hor, if_neg hshft]

/-- The ALU asked by a name that stands for a selector is the ALU on that selector (R242). -/
theorem aluByName_of_selector {name : String} {sel : BitVec 3} (h : selectorOfName name = .ok sel) (a b : Word)
    (s : State) : aluByName name a b s = alu sel a b s := by
  simp only [aluByName, h]

/-- Settles O14: each of the five names stands for its selector, and any other name for none. -/
theorem aluByNameFaultsOnOtherNames : Obligations.AluByNameFaultsOnOtherNames :=
  ⟨fun name a b s h => by simp only [aluByName, selectorOfName_of_not_mem h],
    fun a b s => ⟨aluByName_of_selector rfl a b s, aluByName_of_selector rfl a b s, aluByName_of_selector rfl a b s,
      aluByName_of_selector rfl a b s, aluByName_of_selector rfl a b s⟩⟩

end Sys2Proof.Machine
end

section
/-! PROOFS. What no step writes, and the state a core is built in: R276, and building and loading by R270 to R272. -/

namespace Sys2Proof.Machine

/-! ### What no step writes -/

/-- No execute phase that faults has written the instruction memory or the parameters (R247, R276). -/
theorem exec_fault_keeps_imem_config {i : Instr} {s l : State} {c : FaultCause}
    (h : exec i s = .fault (.raised c l)) : l.imem = s.imem ∧ l.config = s.config := by
  rcases exec_fault_cases h with ⟨_, _, _, -, -, hf⟩ | ⟨_, _, _, -, -, hf⟩ | ⟨_, -, -, hf⟩ | ⟨-, -, hf⟩ <;>
    cases hf <;> exact ⟨rfl, rfl⟩

/-- A step that answers a next state has written neither the instruction memory nor the parameters (R276). -/
theorem step_next_keeps_imem_config {s t : State} (h : step s = .next t) : t.imem = s.imem ∧ t.config = s.config := by
  rcases step_next_cases h with ⟨-, -, rfl⟩ | ⟨-, -, d, -, hexec⟩
  · exact ⟨rfl, rfl⟩
  · obtain ⟨hconfig, himem, -⟩ := exec_keeps_context hexec
    exact ⟨himem.trans (atExecute_imem s d), hconfig.trans (atExecute_config s d)⟩

/-- A step that faults, at the fetch or in execute, has written neither of them (R247, R276). -/
theorem step_fault_keeps_imem_config {s l : State} {c : FaultCause} (h : step s = .fault (.raised c l)) :
    l.imem = s.imem ∧ l.config = s.config := by
  rcases step_fault_cases h with ⟨-, hf⟩ | ⟨-, -, hf⟩ | ⟨-, -, d, -, hexec⟩
  · cases hf
  · cases hf
    exact ⟨rfl, rfl⟩
  · obtain ⟨himem, hconfig⟩ := exec_fault_keeps_imem_config hexec
    exact ⟨himem.trans (atExecute_imem s d), hconfig.trans (atExecute_config s d)⟩

/-- Settles O45: the fetch and execute keep both, whether the step completes or faults. -/
theorem instructionMemoryNeverWritten : Obligations.InstructionMemoryNeverWritten :=
  fun _ => ⟨fun _ => step_next_keeps_imem_config, fun _ _ => step_fault_keeps_imem_config⟩

/-! ### Building the core and loading its program -/

/-- A program that fits is in the built core's instruction memory, the rest is as constructed (R270, R272). -/
theorem build_in {p : Params} (h : (p.program.getD []).length ≤ p.config.imemSize) :
    build p = .ok (setPc 0 (setImem (Memory.ofWords 0 (p.program.getD [])) (construct p))) :=
  (build_eq_load p).trans (loadProgram_in h)

/-- With a program that does not fit no core is built (R272). -/
theorem build_out {p : Params} (h : p.config.imemSize < (p.program.getD []).length) :
    build p = .error (.outOfBounds .imem p.config.imemSize) :=
  (build_eq_load p).trans (loadProgram_out (s := construct p) h.not_ge)

/-- Settles O54: building loads the program, or none, into the constructed core, and each memory reads as the list of
words it is made of. -/
theorem buildLeavesInitialState : Obligations.BuildLeavesInitialState := by
  refine fun p => ⟨fun hfits => ⟨_, build_in hfits, ?_⟩, build_out⟩
  exact ⟨rfl, rfl, rfl, rfl, rfl, rfl, rfl, rfl, fun _ => rfl, Memory.read_ofWords_zero _, Memory.read_ofWords_zero _⟩

/-- Settles O56: loading writes instruction memory and the PC, and building with a program that does not fit fails as
its loading does. -/
theorem loadReplacesInstructionMemory : Obligations.LoadReplacesInstructionMemory := by
  refine fun ws s => ⟨fun hfits => ⟨_, loadProgram_in hfits, Memory.read_ofWords_zero ws, rfl, rfl⟩,
    fun hlong => ⟨loadProgram_out hlong.not_ge, fun p hconfig hprogram => ?_⟩⟩
  have hplong : p.config.imemSize < (p.program.getD []).length := by rwa [hconfig, hprogram]
  rw [build_out hplong, hconfig]

/-! ### The state after reset -/

/-- The chosen data memory, 65536 words of 0x0000, lists no word (log entry 4). -/
theorem construct_chosen_dmem : (construct Params.chosen).dmem = [] := by
  rw [construct_dmem, Params.chosen, Memory.ofWords_replicate_zero]

/-- The core constructed from the chosen parameters is the one after reset (R271). -/
theorem construct_chosen : construct Params.chosen = State.reset :=
  State.ext_fields rfl rfl rfl rfl rfl rfl rfl rfl rfl rfl construct_chosen_dmem

/-- Settles O55: without a program the built core is the constructed one. -/
theorem resetIsTheChosenBuild : Obligations.ResetIsTheChosenBuild := congrArg Except.ok construct_chosen

/-- The chosen parameters are in the ranges of R13. -/
theorem Params.legal_chosen : Params.chosen.legal = true :=
  Params.legal_iff.mpr ⟨by decide, List.length_replicate⟩

/-- Settles O50: the state after reset is a core built with legal parameters. -/
theorem resetMeetsTheMachineInvariant : Obligations.ResetMeetsTheMachineInvariant :=
  inv_of_build_ok Params.legal_chosen resetIsTheChosenBuild

end Sys2Proof.Machine
end
